-- ==== Sys2Proof/Word.lean ====
section
/-! DEFINITION. The word types of the PTW: every value is an unsigned bit vector of a stated width
(spec/00_scope.md R4, R6; spec/30_encoding.md R45). -/

namespace Sys2Proof

/-- 64 bits: a virtual address, a physical address, a page-table entry (R4 `VA_BITS`, `PA_BITS`, `ENTRY_BITS`). -/
abbrev Word := BitVec 64

/-- A request word, format REQ (R46). -/
abbrev ReqWord := BitVec 129

/-- A response word, format RSP (R54). -/
abbrev RspWord := BitVec 65

/-- A word of a read answer, format MRSP (R58). -/
abbrev MrspWord := BitVec 65

end Sys2Proof
end

