-- ==== Sys2Proof/Syntax.lean ====
section
/-! DEFINITION. The two requests, the messages of the three channels and the values a walk is made of
(spec/30_encoding.md R45 to R58; spec/40_extract.md; spec/41_translate.md). -/

namespace Sys2Proof

/-- The operation select of a request (R47): EXTRACT is coded 0, TRANSLATE 1. -/
inductive Op where
  | extract
  | translate
deriving DecidableEq, Repr

/-- A decoded request, one constructor per row of the opcode table. Both carry every field of format REQ (R46):
EXTRACT ignores its `root` (R48), and keeps it so that no bit of the request word is dropped (log 17). -/
inductive Instr where
  /-- `EXTRACT <va>` (R64). -/
  | extract (va root : Word)
  /-- `TRANSLATE <va>, <root>` (R77). -/
  | translate (va root : Word)
deriving DecidableEq, Repr

/-- Why a number is no request word. -/
inductive DecodeError where
  /-- The number needs more than 129 bits; format REQ has 129 (R46). -/
  | tooWide
deriving DecidableEq, Repr

/-- The level of the walk (R12): 1 = PML4, 2 = PDPT, 3 = PD, 4 = PT. -/
inductive Level where
  | pml4
  | pdpt
  | pd
  | pt
deriving DecidableEq, Repr

/-- The ordered 4-tuple `(i1, i2, i3, i4)` of 9-bit indices (R63). -/
structure Indices where
  i1 : BitVec 9
  i2 : BitVec 9
  i3 : BitVec 9
  i4 : BitVec 9
deriving DecidableEq, Repr

/-- `Result ::= Ok(u64) | Fault` (R7). -/
inductive Result where
  | ok (v : Word)
  | fault
deriving DecidableEq, Repr

/-- The causes of a Fault (R86), labels of the model's internal trace: no interface shows them (R87). -/
inductive Cause where
  /-- F-OVERFLOW: the entry address needs more than 64 bits (R70). -/
  | overflow
  /-- F-ABSENT: the entry address is no key of the image (R71). -/
  | absent
  /-- F-NOTPRESENT: the entry read has bit 0 clear (R72). -/
  | notPresent
deriving DecidableEq, Repr

/-- A response, format RSP (R54). -/
structure Rsp where
  fault : Bool
  data : Word
deriving DecidableEq, Repr

/-- A read answer, format MRSP (R58). -/
structure Mrsp where
  present : Bool
  data : Word
deriving DecidableEq, Repr

/-- What one level of the walk comes to, before anything is made of it (R69 to R72). -/
inductive Visit where
  /-- The sum overflows; nothing is read (R70). -/
  | overflow
  /-- `addr` was read and is no key of the image (R71). -/
  | absent (addr : Word)
  /-- `addr` was read and its entry has bit 0 clear (R72). -/
  | notPresent (addr : Word)
  /-- `addr` was read and holds the present entry `e` (R73). -/
  | entry (addr e : Word)
deriving DecidableEq, Repr

/-- The whole of a walk from some level on: its result and cause, the reads it sends in order (R76), and what
the sequencer's registers hold when it ends (R79, R80). `draws` counts the absent answers it gets (R31). -/
structure Walk where
  result : Result
  cause : Option Cause
  reads : List Word
  lvl : Level
  base : Word
  draws : Nat
deriving DecidableEq, Repr

end Sys2Proof
end

