-- ==== Sys2Proof/Machine/Flags.lean ====
section
/-! DEFINITION. The two bits the fault detector tests. The block has one status flag, the fault tag (R19), and no
condition codes; these tests are what sets it. -/

namespace Sys2Proof.Machine

/-- The carry out of bit 63 of the 65-bit entry-address sum: `sum >= 2^64` (R69, R70). -/
def carryOut (sum : BitVec 65) : Bool :=
  sum.getLsbD 64

/-- The present flag, bit 0 of an entry and nothing else (R33, R72). -/
def isPresent (entry : Word) : Bool :=
  entry.getLsbD 0

/-- The fault tag a result sets (R16, R19): 1 for Fault, 0 for Ok. -/
def faultTag : Result → Bool
  | .ok _ => false
  | .fault => true

end Sys2Proof.Machine
end

