-- ==== Sys2Proof/Machine/Operands.lean ====
section
/-! DEFINITION. How the operands of a request and the fields of an entry are cut out and put together
(R50 to R53, R56, R63, R69, R73, R74, R84). -/

namespace Sys2Proof.Machine

/-- `IDX_MASK` (R4). -/
def idxMask : Word := 0x1FF#64

/-- `OFFSET_MASK` (R4). -/
def offsetMask : Word := 0xFFF#64

/-- `BASE_MASK`, ones at bits 51:12 (R4, R33). -/
def baseMask : Word := 0xFFFFFFFFFF000#64

/-- `IDX_SHIFT(k)` (R4): 39, 30, 21, 12. -/
def indexShift : Level → Nat
  | .pml4 => 39
  | .pdpt => 30
  | .pd => 21
  | .pt => 12

/-- How many levels come after this one (R68). -/
def levelsAfter : Level → Nat
  | .pml4 => 3
  | .pdpt => 2
  | .pd => 1
  | .pt => 0

/-- `lvl + 1` (R80 iii); there is none after level 4. -/
def nextLevel : Level → Option Level
  | .pml4 => some .pdpt
  | .pdpt => some .pd
  | .pd => some .pt
  | .pt => none

/-- The level register after `lvl <- lvl + 1`; it never exceeds 4 (R12). -/
def bumpLevel (k : Level) : Level :=
  (nextLevel k).getD .pt

/-- One index: `(va >> shift) & 0x1FF`, nine bits (R51). -/
def indexAt (va : Word) (shift : Nat) : BitVec 9 :=
  ((va >>> shift) &&& idxMask).setWidth 9

/-- `index(va, k)` (R51), the index the walk uses at level `k` (R66). -/
def index (va : Word) (k : Level) : BitVec 9 :=
  indexAt va (indexShift k)

/-- `extractIndices` (R63). -/
def extractIndices (va : Word) : Indices :=
  { i1 := indexAt va 39, i2 := indexAt va 30, i3 := indexAt va 21, i4 := indexAt va 12 }

/-- The packed tuple, `zext_64({i1, i2, i3, i4})` (R56, R64). -/
def packIndices (t : Indices) : Word :=
  (t.i1 ++ t.i2 ++ t.i3 ++ t.i4).setWidth 64

/-- `offset = va & 0xFFF`, twelve bits (R52). -/
def pageOffset (va : Word) : BitVec 12 :=
  (va &&& offsetMask).setWidth 12

/-- `idx * 8`, the 12-bit value `{idx, 0b000}` (R53). -/
def scaledIndex (idx : BitVec 9) : BitVec 12 :=
  idx ++ 0#3

/-- `zext_65(base) + zext_65(idx * 8)` (R67, R69). -/
def entrySum (base : Word) (idx : BitVec 9) : BitVec 65 :=
  base.setWidth 65 + (scaledIndex idx).setWidth 65

/-- `sum[63:0]` (R67, R79). -/
def entryAddress (sum : BitVec 65) : Word :=
  sum.setWidth 64

/-- `entry & 0xFFFFFFFFFF000` (R73). -/
def nextBase (entry : Word) : Word :=
  entry &&& baseMask

/-- The reconstructor: frame base plus page offset (R74). -/
def physicalAddress (frame va : Word) : Word :=
  frame + (pageOffset va).setWidth 64

end Sys2Proof.Machine
end

