-- ==== Sys2Proof/Config.lean ====
section
/-! DEFINITION. What the spec leaves open on purpose, as constants without a body: nothing can evaluate
them, and a claim that is proved holds whatever they are. -/

namespace Sys2Proof

/-- FREE VALUE. The `data` of a read answer whose `present` is 0: "an arbitrary 64-bit `d`" (R31; R30, R58;
93 U4). The n-th draw of a run is `Config.absentData n`; the counter is `State.draws`. Log 4. -/
opaque Config.absentData : Nat → Word

/-- FREE VALUE. What an image holds at an address that the loader's input writes twice, from the value there
and the value written over it: a parameter of the platform (R104; 93 U11; 91 N9). Log 13. -/
opaque Config.repeatedEntry : Word → Word → Word

end Sys2Proof
end

