-- ==== Sys2Proof/WellFormed.lean ====
section
/-! DEFINITION. The checks the formats admit. A request has none: every field accepts every value (R49). -/

namespace Sys2Proof

/-- Every request is well-formed: "`op` has one bit and both values are operations; `va` and `root` accept every
64-bit value" (R49). -/
def Instr.wellFormed : Instr → Bool
  | .extract _ _ => true
  | .translate _ _ => true

/-- A number is a request word when it fits in the 129 bits of format REQ (R46). -/
def isRequestNumber (w : Nat) : Bool :=
  decide (w < 2 ^ 129)

/-- A response the PTW produces: "the wire has 2^64 - 1 words with `fault` = 1 and `data` not 0 that the PTW
never produces" (R55). -/
def Rsp.wellFormed (r : Rsp) : Bool :=
  !r.fault || decide (r.data = 0)

end Sys2Proof
end

