-- ==== Sys2Proof/Decode.lean ====
section
/-! DEFINITION. The decoder and the encoder of the request word (R46, R47, R49, R62), and the words of the other
messages (R54, R57, R58). The message MREQ is its 64-bit address and needs no code of its own (R57). -/

namespace Sys2Proof

/-- The operation a request word selects: "The decoder's whole job is to read bit 128 of the request word" (R62). -/
def decodeOp (w : ReqWord) : Op :=
  if w.getLsbD 128 then .translate else .extract

/-- Bits 127:64 (R46). -/
def decodeRoot (w : ReqWord) : Word :=
  w.extractLsb' 64 64

/-- Bits 63:0 (R46). -/
def decodeVa (w : ReqWord) : Word :=
  w.extractLsb' 0 64

/-- The request a word stands for. Total: no word is reserved or illegal (R49). -/
def decode (w : ReqWord) : Instr :=
  match decodeOp w with
  | .extract => .extract (decodeVa w) (decodeRoot w)
  | .translate => .translate (decodeVa w) (decodeRoot w)

/-- The decoder on numbers: a number of more than 129 bits is no request and is rejected by name. -/
def decodeNumber (w : Nat) : Except DecodeError Instr :=
  if isRequestNumber w then .ok (decode (BitVec.ofNat 129 w)) else .error .tooWide

/-- The bit that codes an operation (R47). -/
def encodeOp : Op → BitVec 1
  | .extract => 0#1
  | .translate => 1#1

/-- The operation of a request. -/
def Instr.op : Instr → Op
  | .extract _ _ => .extract
  | .translate _ _ => .translate

/-- The word of a request, `{op, root, va}` (R46). -/
def encode : Instr → ReqWord
  | .extract va root => encodeOp .extract ++ root ++ va
  | .translate va root => encodeOp .translate ++ root ++ va

/-- The word of a response, `{fault, data}` (R54). -/
def Rsp.toWord (r : Rsp) : RspWord :=
  BitVec.ofBool r.fault ++ r.data

/-- The fields of a response word (R54). -/
def Rsp.ofWord (w : RspWord) : Rsp :=
  { fault := w.getLsbD 64, data := w.extractLsb' 0 64 }

/-- The sum-type value of a response: any word with `fault` = 1 is read as Fault, whatever its `data` (R55; 93 U13). -/
def Rsp.result (r : Rsp) : Result :=
  if r.fault then .fault else .ok r.data

/-- The response that carries a result; a Fault's payload is forced to zero (R55). -/
def Result.toRsp : Result → Rsp
  | .ok v => { fault := false, data := v }
  | .fault => { fault := true, data := 0 }

/-- The word of a read answer, `{present, data}` (R58). -/
def Mrsp.toWord (m : Mrsp) : MrspWord :=
  BitVec.ofBool m.present ++ m.data

/-- The fields of a word of a read answer (R58). -/
def Mrsp.ofWord (w : MrspWord) : Mrsp :=
  { present := w.getLsbD 64, data := w.extractLsb' 0 64 }

/-- The request word that the opcode table's numbering gives: bit 0 is bit 0 of the word, and every bit from
`nbits` on is 0. The request is one word of 129 bits and has no byte order (R28; log 18). -/
def tableWord (nbits w : Nat) : Nat :=
  w % 2 ^ nbits

/-- What the decoder reads from the bits `w` of an instruction (none where it rejects them). -/
def decodeTableWord (nbits w : Nat) : Option Instr :=
  (decodeNumber (tableWord nbits w)).toOption

end Sys2Proof
end

