-- ==== Sys2Proof/Machine/State.lean ====
section
/-! DEFINITION. The state of a run, its reset value, and the reasons a step can stop. Plain data throughout. -/

namespace Sys2Proof.Machine

/-- The physical memory image IMG, "a sparse mapping from physical address (64-bit unsigned integer) to a 64-bit
unsigned entry value" (R25), as a list of pairs. Word-keyed: one entry a key, keys unrelated to their
neighbours (R27; log 3). An address that is not listed is Absent, which is no value at all. -/
abbrev Memory := List (Nat × Word)

/-- The keys rise strictly, start at `lo` or above, and fit in 64 bits. -/
def Memory.wfFrom (lo : Nat) : Memory → Bool
  | [] => true
  | (k, _) :: m => decide (lo ≤ k) && decide (k < 2 ^ 64) && Memory.wfFrom (k + 1) m

/-- The canonical form: keys strictly rising, each a 64-bit number (R25). An unlisted address reads as Absent, and
no entry equals that, so equal images are equal lists. -/
def Memory.wf (m : Memory) : Bool :=
  Memory.wfFrom 0 m

/-- The sequencer state (R11); its binary codes are not specified (93 U14). -/
inductive SeqState where
  | idle
  | issue
  | wait
  | resp
deriving DecidableEq, Repr

/-- The memory channel holds nothing, one read request, or one read answer (R21 b). -/
inductive MemChan where
  | empty
  | request (addr : Word)
  | answer (m : Mrsp)
deriving DecidableEq, Repr

/-- The input pins whose level the state does not already give (R59): `rst`, `rsp_ready`, `mem_req_ready`.
`req_valid` and `mem_rsp_valid` are the contents of the channels. -/
structure Pins where
  rst : Bool
  rspReady : Bool
  memReqReady : Bool
deriving DecidableEq, Repr

/-- What may happen next (R82; log 1). A move that is not enabled changes nothing: its agent waits. -/
inductive Move where
  /-- All agents act promptly: the held request is finished, or an offered one is run to its response, or the
  requester offers the next one. The transaction level of R9. -/
  | transact
  /-- The requester puts its next request on the empty request channel (R82, R106). -/
  | offer
  /-- The PTW takes whichever of ACCEPT, ISSUE, TAKE is enabled (R78 to R80). -/
  | ptw
  /-- The memory agent's M-ANSWER (R31). -/
  | memAnswer
  /-- The requester takes the response: RESPOND (R81). -/
  | take
  /-- Reset (R99 to R101). -/
  | reset
  /-- One rising edge of `clk` at the PTW (R59). -/
  | edge (pins : Pins)
deriving DecidableEq, Repr

/-- Everything the spec gives a run. INVENTORY.md, heading State, gives each field's rule and reset value. -/
structure State where
  /-- `st` (R11). -/
  st : SeqState
  /-- `lvl` (R12). -/
  lvl : Level
  /-- `op_q` (R13). -/
  opQ : Op
  /-- `va_q` (R14). -/
  vaQ : Word
  /-- `base_q` (R15). -/
  baseQ : Word
  /-- `res_fault` (R16, R19). -/
  resFault : Bool
  /-- `res_data` (R17). -/
  resData : Word
  /-- The request channel (R21 a). -/
  reqChan : Option ReqWord
  /-- The memory channel (R21 b). -/
  memChan : MemChan
  /-- IMG, a constant of the run (R25, R105). -/
  img : Memory
  /-- The requests the requester will still offer, in order (R8, R106). -/
  offers : List ReqWord
  /-- MODEL's own: the responses the requester has taken, in order (R112; log 5). -/
  taken : List Rsp
  /-- MODEL's own: the addresses sent on the memory port, in order (R76, R112; log 5). -/
  readLog : List Word
  /-- MODEL's own: how many free values have been drawn (R31; log 4). -/
  draws : Nat
  /-- MODEL's own: the moves still to happen, in order (93 U15; log 1). -/
  agenda : List Move
  /-- MODEL's own: the moves that follow the agenda, in order, over and over. A cycle without `memAnswer` is a memory
  agent that never answers again (R109), one without `take` a requester that never takes (R107); none at all means
  prompt agents (log 1, log 8). -/
  cycle : List Move
deriving DecidableEq, Repr

/-- No constructor: nothing stops this block. "There are no fatal errors within the core" (R85), and a
TranslationFault is a result handed to the requester, never a stop (R88). Safe: nothing is left out. -/
inductive Fault
deriving DecidableEq, Repr

/-- Why an instruction has no meaning in the model. -/
inductive Refusal where
  /-- Raised by an arm of exec whose instruction is not modelled yet, by its mnemonic; no arm raises it now. Safe. -/
  | notModelled (mnemonic : String)
deriving DecidableEq, Repr

/-- The machine right after reset (R23, R100): IDLE, every channel empty. The working registers that the spec
leaves unspecified hold the values log 2 names (DESIGN CHOICE, unsafe). No image is loaded and no request is
waiting: both come from outside (R103; log 11). -/
def State.reset : State :=
  { st := .idle
    lvl := .pml4
    opQ := .extract
    vaQ := 0
    baseQ := 0
    resFault := false
    resData := 0
    reqChan := none
    memChan := .empty
    img := []
    offers := []
    taken := []
    readLog := []
    draws := 0
    agenda := []
    cycle := [] }

end Sys2Proof.Machine
end

