-- ==== Sys2Proof/Machine/Ops.lean ====
section
/-! DEFINITION. The named operations over the image, the result registers and the channels. -/

namespace Sys2Proof.Machine

/-! ### The image -/

/-- What the image holds at the number `a` (R25, R27): the key is matched whole, and an unlisted one is Absent. A
number of 2^64 or more is never a key of a well-formed image (R70). -/
def Memory.entryAt : Memory → Nat → Option Word
  | [], _ => none
  | (k, v) :: m, a => if k = a then some v else Memory.entryAt m a

/-- `MemRead(addr, 8)` (R7): one whole entry or Absent. It changes nothing (R37). -/
def Memory.read (m : Memory) (a : Word) : Option Word :=
  m.entryAt a.toNat

/-- The loader puts one pair into the image (R104). The PTW has no such operation (R38). What a repeated address
leaves is the platform's (93 U11; log 13). -/
def Memory.loadEntry : Memory → Word → Word → Memory
  | [], a, v => [(a.toNat, v)]
  | (k, w) :: m, a, v =>
    if a.toNat < k then (a.toNat, v) :: (k, w) :: m
    else if a.toNat = k then (k, Config.repeatedEntry w v) :: m
    else (k, w) :: Memory.loadEntry m a v

/-- The image of a list of (physicalAddress, entryValue) pairs, loaded in order (R104). -/
def Memory.ofPairs (pairs : List (Word × Word)) : Memory :=
  pairs.foldl (fun m p => m.loadEntry p.1 p.2) []

/-! ### The result registers -/

/-- The held request's result is `Ok(v)` and waits to be taken (R16, R17). -/
def State.respondOk (v : Word) (s : State) : State :=
  { s with resFault := false, resData := v, st := .resp }

/-- `raise Fault` (R7, R88): the result is Fault with payload 0 and waits to be taken, as any result does. Nothing
else is saved or changed, and there is no return from it (R91). The one operation every cause goes through. -/
def State.raiseFault (s : State) : State :=
  { s with resFault := true, resData := 0, st := .resp }

/-- The held request's result, whichever it is. -/
def State.setResult (r : Result) (s : State) : State :=
  match r with
  | .ok v => s.respondOk v
  | .fault => s.raiseFault

/-! ### The channels -/

/-- The response channel, the same information as `st` = RESP with the result registers (R21 c; log 6). -/
def State.rspChan (s : State) : Option Rsp :=
  if s.st = .resp then some { fault := s.resFault, data := s.resData } else none

/-- Step RESPOND, the requester being ready (R81): it receives the response and the PTW is idle. -/
def State.respond (s : State) : State :=
  match s.rspChan with
  | some r => { s with st := .idle, taken := s.taken ++ [r] }
  | none => s

/-- A request that cannot be accepted now "is not lost and not refused: it waits on the request channel" (R106); where
the channel is taken, it waits at the head of the requester's queue. -/
def State.hold (w : ReqWord) (s : State) : State :=
  match s.reqChan with
  | none => { s with reqChan := some w }
  | some _ => { s with offers := w :: s.offers }

/-- The requester puts its next request on the request channel, if that is empty (R82). -/
def State.offer (s : State) : State :=
  match s.reqChan, s.offers with
  | none, w :: ws => { s with reqChan := some w, offers := ws }
  | _, _ => s

/-- A read request goes out on the memory channel (R29, R79). -/
def State.sendRead (addr : Word) (s : State) : State :=
  { s with memChan := .request addr, readLog := s.readLog ++ [addr] }

/-- M-ANSWER (R31): `(1, IMG(addr))` for a key of the image, `(0, d)` with a free `d` otherwise. -/
def State.memAnswer (s : State) : State :=
  match s.memChan with
  | .request a =>
    match s.img.read a with
    | some e => { s with memChan := .answer { present := true, data := e } }
    | none =>
      { s with memChan := .answer { present := false, data := Config.absentData s.draws }, draws := s.draws + 1 }
  | _ => s

/-! ### Reset -/

/-- Reset (R99 to R101, R23): IDLE, the memory and response channels empty, the working registers as `State.reset`
has them (log 9). A held request is dropped without a response; an offered one stays offered; the image, the
requester and what it has seen are no state of the PTW. -/
def State.resetPtw (s : State) : State :=
  { s with
    st := State.reset.st
    lvl := State.reset.lvl
    opQ := State.reset.opQ
    vaQ := State.reset.vaQ
    baseQ := State.reset.baseQ
    resFault := State.reset.resFault
    resData := State.reset.resData
    memChan := .empty }

/-! ### The run from outside -/

/-- The image is loaded before the run (R103, R104). -/
def State.withImage (img : Memory) (s : State) : State :=
  { s with img := img }

/-- An idle PTW with this request, and no other, on its request channel, and prompt agents: the next step runs it. -/
def State.withRequest (w : ReqWord) (s : State) : State :=
  { s with st := .idle, memChan := .empty, reqChan := some w, agenda := [], cycle := [] }

/-- The moves ahead: the agenda, and where it is used up the cycle once more (log 1). -/
def State.schedule (s : State) : List Move :=
  match s.agenda with
  | [] => s.cycle
  | _ => s.agenda

/-- The next move; agents are prompt when neither agenda nor cycle says anything (log 1). -/
def State.nextMove (s : State) : Move :=
  s.schedule.head?.getD .transact

/-- The state once that move is off the agenda. -/
def State.dropMove (s : State) : State :=
  { s with agenda := s.schedule.tail }

end Sys2Proof.Machine
end

