-- ==== Sys2Proof/Machine/Walk.lean ====
section
/-! DEFINITION. The table walk as a function of the image: `translate` (R67) and its read trace (R76). -/

namespace Sys2Proof.Machine

/-- One level of the walk: the entry address, the overflow test, the read, the two tests of the fault detector, in
that order (R69 to R72, R89). -/
def visit (img : Memory) (va : Word) (k : Level) (base : Word) : Visit :=
  let sum := entrySum base (index va k)
  if carryOut sum then .overflow
  else
    match img.read (entryAddress sum) with
    | none => .absent (entryAddress sum)
    | some e => if isPresent e then .entry (entryAddress sum) e else .notPresent (entryAddress sum)

/-- A walk that ends at level `k` with Fault (R75): the registers keep this level and its base (R79, R80). -/
def stopWalk (c : Cause) (reads : List Word) (k : Level) (base : Word) (draws : Nat) : Walk :=
  { result := .fault, cause := some c, reads := reads, lvl := k, base := base, draws := draws }

/-- A walk that ends at level `k` with Ok (R74, R80 iv): `base_q` is not rewritten. -/
def completeWalk (reads : List Word) (k : Level) (base pa : Word) : Walk :=
  { result := .ok pa, cause := none, reads := reads, lvl := k, base := base, draws := 0 }

/-- The walk from a level whose visit is given: it stops at the first fault, and goes on with a present entry (R75). -/
def afterVisit (k : Level) (base : Word) (v : Visit) (goOn : Word → Word → Walk) : Walk :=
  match v with
  | .overflow => stopWalk .overflow [] k base 0
  | .absent a => stopWalk .absent [a] k base 1
  | .notPresent a => stopWalk .notPresent [a] k base 0
  | .entry a e => goOn a e

/-- The walk from level `k`, with `n` levels to come after it (R67, R68). -/
def walk (img : Memory) (va : Word) : Nat → Level → Word → Walk
  | 0, k, base =>
    afterVisit k base (visit img va k base) fun a e => completeWalk [a] k base (physicalAddress (nextBase e) va)
  | n + 1, k, base =>
    afterVisit k base (visit img va k base) fun a e =>
      let w := walk img va n (bumpLevel k) (nextBase e)
      { w with reads := a :: w.reads }

/-- The walk of a request: level 1, with the root as its base, unmasked (R68, R35). -/
def fullWalk (va root : Word) (img : Memory) : Walk :=
  walk img va 3 .pml4 root

/-- `translate(va, root, IMG)` (R67). -/
def translateVa (va root : Word) (img : Memory) : Result :=
  (fullWalk va root img).result

/-- `reads(va, root, IMG)` (R76). -/
def reads (va root : Word) (img : Memory) : List Word :=
  (fullWalk va root img).reads

/-- The response to a request, a function of the request and the image (R9, R41, R83). -/
def responseOf (img : Memory) : Instr → Rsp
  | .extract va _ => (Result.ok (packIndices (extractIndices va))).toRsp
  | .translate va root => (translateVa va root img).toRsp

/-- The reads of a request, in order; EXTRACT's list is empty (R76). -/
def readsOf (img : Memory) : Instr → List Word
  | .extract _ _ => []
  | .translate va root => reads va root img

end Sys2Proof.Machine
end

