-- ==== Sys2Proof/Machine/Sequencer.lean ====
section
/-! DEFINITION. The micro-steps of the PTW agent (R78 to R81) and the prompt completion of a held request. -/

namespace Sys2Proof.Machine

/-- ACCEPT of an EXTRACT: it is answered at once (R78, R64). -/
def State.acceptExtract (va : Word) (s : State) : State :=
  { s with opQ := .extract, vaQ := va }.respondOk (packIndices (extractIndices va))

/-- ACCEPT of a TRANSLATE: the walk starts at level 1 with the root (R78, R68). -/
def State.acceptTranslate (va root : Word) (s : State) : State :=
  { s with opQ := .translate, vaQ := va, baseQ := root, lvl := .pml4, st := .issue }

/-- What accepting a request does, its word being off the channel (R78). -/
def State.acceptInstr (i : Instr) (s : State) : State :=
  match i with
  | .extract va _ => s.acceptExtract va
  | .translate va root => s.acceptTranslate va root

/-- Step ACCEPT (R78); without a request on the channel the idle PTW waits. -/
def State.acceptStep (s : State) : State :=
  match s.reqChan with
  | some w => { s with reqChan := none }.acceptInstr (decode w)
  | none => s

/-- Step ISSUE (R79). -/
def State.issueStep (s : State) : State :=
  let sum := entrySum s.baseQ (index s.vaQ s.lvl)
  if carryOut sum then s.raiseFault else { s.sendRead (entryAddress sum) with st := .wait }

/-- What TAKE does with an answer that is off the channel (R80 i to iv). -/
def State.takeAnswer (m : Mrsp) (s : State) : State :=
  if !m.present then s.raiseFault
  else if !isPresent m.data then s.raiseFault
  else
    match nextLevel s.lvl with
    | some k => { s with baseQ := nextBase m.data, lvl := k, st := .issue }
    | none => s.respondOk (physicalAddress (nextBase m.data) s.vaQ)

/-- Step TAKE (R80); while the answer is not there the PTW waits. -/
def State.takeStep (s : State) : State :=
  match s.memChan with
  | .answer m => { s with memChan := .empty }.takeAnswer m
  | _ => s

/-- The PTW's own step in each value of `st`; at most one is enabled (R82). RESPOND needs the requester. -/
def State.ptwStep (s : State) : State :=
  match s.st with
  | .idle => s.acceptStep
  | .issue => s.issueStep
  | .wait => s.takeStep
  | .resp => s

/-- The rest of the walk of a request held in ISSUE, with a memory agent that answers at once (R83). -/
def State.finishWalk (s : State) : State :=
  let w := walk s.img s.vaQ (levelsAfter s.lvl) s.lvl s.baseQ
  { s with lvl := w.lvl, baseQ := w.base, readLog := s.readLog ++ w.reads, draws := s.draws + w.draws }.setResult
    w.result

/-- The held request up to its result, the read in flight being answered and taken first. A PTW in WAIT with
nothing in flight, which no run reaches (R24 c), has nothing to take and waits. -/
def State.finishHeld (s : State) : State :=
  match s.st with
  | .issue => s.finishWalk
  | .wait =>
    let t := s.memAnswer.takeStep
    if t.st = .issue then t.finishWalk else t
  | _ => s

/-- The held request up to its response, the requester being ready (R83, R106). -/
def State.runHeld (s : State) : State :=
  s.finishHeld.respond

end Sys2Proof.Machine
end

