-- ==== Sys2Proof/Machine/Extract.lean ====
section
/-! DEFINITION. Operation family 1, the index extractor (spec/40_extract.md). -/

namespace Sys2Proof.Machine

/-- EXTRACT (R64): an idle PTW accepts it and responds Ok with the packed indices; no read, no fault, `root`
ignored (R48). Held back while another request is inside the PTW (R106). -/
def execExtract (va root : Word) (s : State) : Host.Outcome State Fault Refusal :=
  if s.st = .idle then .next (s.acceptExtract va).respond else .next (s.hold (encode (.extract va root)))

end Sys2Proof.Machine
end

