-- ==== Sys2Proof/Machine/Translate.lean ====
section
/-! DEFINITION. Operation family 2, the table walk (spec/41_translate.md). -/

namespace Sys2Proof.Machine

/-- TRANSLATE (R77): an idle PTW accepts it, walks the four levels, stopping at the first fault, and responds Ok
with the physical address or Fault. Held back while another request is inside the PTW (R106). -/
def execTranslate (va root : Word) (s : State) : Host.Outcome State Fault Refusal :=
  if s.st = .idle then .next (s.acceptTranslate va root).runHeld else .next (s.hold (encode (.translate va root)))

end Sys2Proof.Machine
end

