-- ==== Sys2Proof/Machine/Dispatch.lean ====
section
/-! DEFINITION. One arm per request. -/

namespace Sys2Proof.Machine

def exec (i : Instr) (s : State) : Host.Outcome State Fault Refusal :=
  match i with
  | .extract va root => Sys2Proof.Machine.execExtract va root s
  | .translate va root => Sys2Proof.Machine.execTranslate va root s

end Sys2Proof.Machine
end

