-- ==== Sys2Proof/Machine/Signals.lean ====
section
/-! DEFINITION. The signal-level realisation of the channels (R59): the pins as functions of the state, and one
rising edge of `clk` at the PTW. A message's fields have no value while its `valid` is 0 (93 U5; log 12). -/

namespace Sys2Proof.Machine

/-- `req_valid`, driven by the requester: a REQ is offered. -/
def State.reqValid (s : State) : Bool :=
  s.reqChan.isSome

/-- `req_op`, `req_root` and `req_va` while `req_valid` is 1: REQ bits 128, 127:64 and 63:0. -/
def State.reqPort (s : State) : Option (Op × Word × Word) :=
  s.reqChan.map fun w => (decodeOp w, decodeRoot w, decodeVa w)

/-- `req_ready`: "1 exactly when `st` = `IDLE` and `rst` = 0". -/
def State.reqReady (rst : Bool) (s : State) : Bool :=
  decide (s.st = .idle) && !rst

/-- `rsp_valid`: "1 exactly when `st` = `RESP`". -/
def State.rspValid (s : State) : Bool :=
  decide (s.st = .resp)

/-- `rsp_fault` and `rsp_data` while `rsp_valid` is 1. -/
def State.rspPort (s : State) : Option Rsp :=
  s.rspChan

/-- `mem_req_valid`: "1 exactly when `st` = `ISSUE` and the entry address does not overflow". -/
def State.memReqValid (s : State) : Bool :=
  decide (s.st = .issue) && !carryOut (entrySum s.baseQ (index s.vaQ s.lvl))

/-- `mem_req_addr` while `mem_req_valid` is 1. -/
def State.memReqAddr (s : State) : Option Word :=
  if s.memReqValid then some (entryAddress (entrySum s.baseQ (index s.vaQ s.lvl))) else none

/-- `mem_rsp_valid`, driven by the memory agent: a read answer is offered. -/
def State.memRspValid (s : State) : Bool :=
  match s.memChan with
  | .answer _ => true
  | _ => false

/-- `mem_rsp_present` and `mem_rsp_data` while `mem_rsp_valid` is 1. -/
def State.memRspPort (s : State) : Option Mrsp :=
  match s.memChan with
  | .answer m => some m
  | _ => none

/-- `mem_rsp_ready`: "1 exactly when `st` = `WAIT`". -/
def State.memRspReady (s : State) : Bool :=
  decide (s.st = .wait)

/-- One rising edge of `clk` (R59, R99): reset if `rst` is 1; otherwise the transfer whose `valid` and `ready` are
both 1, or the move to RESP of an overflowing ISSUE, which needs no handshake; otherwise the PTW holds.
DESIGN CHOICE, unsafe (log 23): at an edge with `rst` = 1 reset wins over a transfer whose `valid` and `ready` are both
1 there. R59 does not mention `rst` for it; the model counts neither a read as sent nor a response as taken. -/
def State.clockEdge (p : Pins) (s : State) : State :=
  if p.rst then s.resetPtw
  else
    match s.st with
    | .idle => s.acceptStep
    | .issue => if s.memReqValid && !p.memReqReady then s else s.issueStep
    | .wait => s.takeStep
    | .resp => if p.rspReady then s.respond else s

end Sys2Proof.Machine
end

