-- ==== Sys2Proof/Machine/Schedule.lean ====
section
/-! DEFINITION. What each move of the agenda does (R82; log 1). -/

namespace Sys2Proof.Machine

/-- The transaction level (R9, R83) of one step: a held request is run to its response; an idle PTW runs the request
on the channel, decoded; an idle PTW with an empty channel gets the requester's next request, if there is one. -/
def transact (s : State) : Host.Outcome State Fault Refusal :=
  if s.st = .idle then
    match s.reqChan with
    | some w => exec (decode w) { s with reqChan := none }
    | none => .next s.offer
  else .next s.runHeld

/-- One move. -/
def runMove (m : Move) (s : State) : Host.Outcome State Fault Refusal :=
  match m with
  | .transact => transact s
  | .offer => .next s.offer
  | .ptw => .next s.ptwStep
  | .memAnswer => .next s.memAnswer
  | .take => .next s.respond
  | .reset => .next s.resetPtw
  | .edge p => .next (s.clockEdge p)

/-- The state with the table's word `w` of `nbits` bits on the request channel of an idle PTW. -/
def placeTableWord (s : State) (nbits w : Nat) : State :=
  s.withRequest (BitVec.ofNat 129 (tableWord nbits w))

end Sys2Proof.Machine
end

