-- ==== Sys2Proof/Machine/Step.lean ====
section
/-! DEFINITION. One step of the run: the next move, off the agenda. -/

namespace Sys2Proof.Machine

def step (s : State) : Host.Outcome State Fault Refusal :=
  runMove s.nextMove s.dropMove

/-- The request's bits where the next step takes its request from (log 11). -/
def State.withFetchWord (s : State) (nbits w : Nat) : State :=
  placeTableWord s nbits w

end Sys2Proof.Machine
end

