-- ==== Sys2Proof/Machine/Text.lean ====
section
/-! DEFINITION. The text forms of R61: requests and EXTRACT's tuple as this spec writes them (D24, 91 N17; log 20),
the results of TRANSLATE as the writer prints them. -/

namespace Sys2Proof.Machine

/-- `EXTRACT <va>` or `TRANSLATE <va>, <root>`, numbers in decimal; EXTRACT omits its root. -/
def requestText : Instr → String
  | .extract va _ => "EXTRACT " ++ toString va.toNat
  | .translate va root => "TRANSLATE " ++ toString va.toNat ++ ", " ++ toString root.toNat

/-- The writer's text of a TRANSLATE's result: a decimal integer, or the lowercase token. -/
def resultText : Result → String
  | .ok pa => toString pa.toNat
  | .fault => "fault"

/-- The tuple `(i1, i2, i3, i4)` of an EXTRACT in decimal: the spec's notation and no writer's format (D24, 91 N17). -/
def indicesText (t : Indices) : String :=
  "(" ++ toString t.i1.toNat ++ ", " ++ toString t.i2.toNat ++ ", " ++ toString t.i3.toNat ++ ", " ++
    toString t.i4.toNat ++ ")"

/-- The text of the response to a request: the tuple notation for EXTRACT, the writer's text for TRANSLATE. -/
def responseText (img : Memory) : Instr → String
  | .extract va _ => indicesText (extractIndices va)
  | .translate va root => resultText (translateVa va root img)

end Sys2Proof.Machine
end

