-- ==== Sys2Proof/Safety.lean ====
section
/-! DEFINITION. What a good state is, in the terms the claims use: the invariants of R24, the levels a walk reaches,
and the schedules of the three agents. -/

namespace Sys2Proof.Safety

open Sys2Proof.Machine

/-- The entry address of level `k` as an exact number, which may need more than 64 bits (R53, R69). -/
def entryNumber (va : Word) (k : Level) (base : Word) : Nat :=
  base.toNat + (index va k).toNat * 8

/-- What is in flight on the memory channel belongs to the read of the held level: the request is its entry address,
the answer is what the image gives there (R24 c; R31). -/
def inFlightOk (s : State) : Prop :=
  match s.memChan with
  | .empty => s.st ≠ .wait
  | .request a => s.st = .wait ∧ a.toNat = entryNumber s.vaQ s.lvl s.baseQ
  | .answer m =>
    s.st = .wait ∧ s.img.entryAt (entryNumber s.vaQ s.lvl s.baseQ) = if m.present then some m.data else none

/-- The invariants of R24 and the canonical form of the image (R25). -/
structure Coherent (s : State) : Prop where
  /-- The image is in canonical form. -/
  image : s.img.wf = true
  /-- "when `lvl >= 2`, `base_q & ~0xFFFFFFFFFF000 = 0`" (R24 b). -/
  base : s.st = .issue ∨ s.st = .wait → s.lvl ≠ .pml4 → s.baseQ &&& ~~~baseMask = 0
  /-- A walk is held only for a TRANSLATE (R11, R13). -/
  op : s.st = .issue ∨ s.st = .wait → s.opQ = .translate
  /-- Something is in flight exactly in WAIT, and it is this level's (R24 c). -/
  inFlight : inFlightOk s
  /-- "`res_fault` = 1 implies `res_data` = 0" (R24 d). -/
  result : s.st = .resp → s.resFault = true → s.resData = 0

/-- Level `k` is reached by the walk of `va` from `root`, with this base: every level before it had a present entry
at an entry address of at most 64 bits (R68 to R73, R75). -/
inductive Reaches (va root : Word) (img : Memory) : Level → Word → Prop where
  /-- The walk starts at level 1 with the root. -/
  | start : Reaches va root img .pml4 root
  /-- A present entry gives the next level its base. -/
  | down {k k' : Level} {base e : Word} (here : Reaches va root img k base)
      (fits : entryNumber va k base < 2 ^ 64) (found : img.entryAt (entryNumber va k base) = some e)
      (present : e.getLsbD 0 = true) (next : nextLevel k = some k') :
      Reaches va root img k' (e &&& 0xFFFFFFFFFF000#64)

/-- Cause `c` of R86 holds at level `k` with this base. -/
def causeHolds (va : Word) (img : Memory) (k : Level) (base : Word) : Cause → Prop
  | .overflow => 2 ^ 64 ≤ entryNumber va k base
  | .absent => entryNumber va k base < 2 ^ 64 ∧ img.entryAt (entryNumber va k base) = none
  | .notPresent =>
    entryNumber va k base < 2 ^ 64 ∧ ∃ e, img.entryAt (entryNumber va k base) = some e ∧ e.getLsbD 0 = false

/-- Component `k` of the tuple `(i1, i2, i3, i4)` (R63, R66). -/
def component (t : Indices) : Level → BitVec 9
  | .pml4 => t.i1
  | .pdpt => t.i2
  | .pd => t.i3
  | .pt => t.i4

/-- The level's number (R12). -/
def levelNumber : Level → Nat
  | .pml4 => 1
  | .pdpt => 2
  | .pd => 3
  | .pt => 4

/-- The moves that carry one level of a walk: ISSUE, M-ANSWER, TAKE. -/
def levelRound : List Move :=
  [.ptw, .memAnswer, .ptw]

/-- A schedule for one request on the channel whose walk reads `n` levels: ACCEPT, `n` rounds, RESPOND (R110). -/
def roundsSchedule (n : Nat) : List Move :=
  .ptw :: (List.replicate n levelRound).flatten ++ [.take]

/-- A schedule long enough for any request on the channel. -/
def promptSchedule : List Move :=
  roundsSchedule 4

/-- A schedule in which the requester offers its next request and then waits for the response. -/
def batchSchedule (n : Nat) : List Move :=
  (List.replicate n (.offer :: promptSchedule)).flatten

/-- How many micro-steps of the PTW a schedule of micro-steps asks for: ACCEPT, ISSUE and TAKE are `ptw`, RESPOND is
`take` (R110). -/
def microSteps (ms : List Move) : Nat :=
  ms.countP fun m => m = .ptw ∨ m = .take

/-- No reset: every step of the three agents and every edge with `rst` = 0 (R82). -/
def noReset : Move → Bool
  | .reset => false
  | .edge p => !p.rst
  | _ => true

/-- The PTW makes whichever of ACCEPT, ISSUE and TAKE is enabled, in any state. An edge counts only with
`mem_req_ready` = 1: with 0 an ISSUE whose address does not overflow is held (R59; log 24). -/
def movesPtw : Move → Bool
  | .ptw => true
  | .transact => true
  | .edge p => p.memReqReady
  | _ => false

/-- The memory agent answers a read that is on the channel (R31). -/
def answersRead : Move → Bool
  | .memAnswer => true
  | .transact => true
  | _ => false

/-- The requester takes a response that is offered (R81, R107). -/
def takesResponse : Move → Bool
  | .take => true
  | .transact => true
  | .edge p => p.rspReady
  | _ => false

/-- The requests not accepted yet, in order: the one on the channel, and those the requester will still offer. -/
def toServe (s : State) : List ReqWord :=
  s.reqChan.toList ++ s.offers

/-- The next `n` moves are all of this kind: the agenda's, and where it is used up before, those of the cycle. -/
def onlyMoves (p : Move → Bool) (n : Nat) (s : State) : Prop :=
  s.agenda.all p = true ∧ (n ≤ s.agenda.length ∨ s.cycle ≠ [] ∧ s.cycle.all p = true)

/-- A run that follows this schedule and then has no more moves to make. -/
def follow (ms : List Move) (s : State) : Host.Outcome State Fault Refusal :=
  Sys2Proof.core.run ms.length { s with agenda := ms }

/-- The first `n` moves of an infinite schedule, made in order. -/
def alongSchedule (σ : Nat → Move) (n : Nat) (s : State) : Host.Outcome State Fault Refusal :=
  follow ((List.range n).map σ) s

/-- An infinite schedule without a reset that keeps the duties of the agents, from this state: "a read request left on
the channel is eventually answered" (R109), and "the requester must eventually take every response" (R107). The premise
`ptw` is no duty the spec names, but a DESIGN CHOICE, safe (log 24): the PTW moves again and again, and at clock edges it
does so with `mem_req_ready` = 1, so the memory agent takes a read request that is offered. -/
structure Fair (σ : Nat → Move) (s : State) : Prop where
  noReset : ∀ n, noReset (σ n) = true
  ptw : ∀ n, ∃ m, n ≤ m ∧ movesPtw (σ m) = true
  memory : ∀ n t a, alongSchedule σ n s = .next t → t.memChan = .request a → ∃ m, n ≤ m ∧ answersRead (σ m) = true
  requester : ∀ n t, alongSchedule σ n s = .next t → t.st = .resp → ∃ m, n ≤ m ∧ takesResponse (σ m) = true

/-- A memory image in which every word stands for the same present bit and the same base field, at the same keys:
only bits 11:1 and 63:52 of entries may differ (R34). -/
def sameUpToIgnoredBits : Memory → Memory → Prop
  | [], [] => True
  | (k, v) :: m, (k', v') :: m' => k = k' ∧ v &&& 0xFFFFFFFFFF001#64 = v' &&& 0xFFFFFFFFFF001#64 ∧ sameUpToIgnoredBits m m'
  | _, _ => False

end Sys2Proof.Safety
end

