-- ==== Sys2Proof/Certificates/Slice0/Obligations.lean ====
section
/-! DEFINITION. The statements. Each formalises rules R<n> of spec/; a statement never speaks of a program. -/

open Sys2Proof Sys2Proof.Machine Sys2Proof.Safety

/-! ### Encodings -/

/-- R47: bit 128 selects the operation, by mask and match over the 129-bit word; the operands are bits 63:0 and 127:64. -/
def Obligations.OpBitSelectsOperation : Prop :=
  ∀ w : ReqWord,
    (w &&& 0x100000000000000000000000000000000#129 = 0#129 →
      decode w = .extract (w.extractLsb' 0 64) (w.extractLsb' 64 64)) ∧
    (w &&& 0x100000000000000000000000000000000#129 = 0x100000000000000000000000000000000#129 →
      decode w = .translate (w.extractLsb' 0 64) (w.extractLsb' 64 64))

/-- R46, R47: decoding the word of any well-formed request, with every operand, gives it back. -/
def Obligations.EncodeThenDecode : Prop :=
  ∀ i : Instr, i.wellFormed = true → decode (encode i) = i

/-- R49: every one of the 2^129 request words is a request, and no two words are the same request. -/
def Obligations.DecodeThenEncode : Prop :=
  ∀ w : ReqWord, encode (decode w) = w

/-- R46, R47 on words the spec writes out (spec/95_test_vectors.md E16, T5, T15). -/
def Obligations.WordsOfTheSpecDecode : Prop :=
  decode 0x00000000000000000000123456789ABC#129 = .extract 0x123456789ABC#64 0#64 ∧
  decode 0xDEADBEEF000000000000123456789ABC#129 = .extract 0x123456789ABC#64 0xDEADBEEF00000000#64 ∧
  decode 0x100000000000100000000008080604567#129 = .translate 0x8080604567#64 0x10000#64 ∧
  decode 0x1FFFFFFFFFFFFF0080000FF8000000000#129 = .translate 0xFF8000000000#64 0xFFFFFFFFFFFFF008#64

/-- R46, R49: the numbers of 129 bits are the request words, and a wider number is none. -/
def Obligations.TableWordsDecode : Prop :=
  ∀ nbits w : Nat, w < 2 ^ nbits →
    decodeTableWord nbits w = if w < 2 ^ 129 then some (decode (BitVec.ofNat 129 w)) else none

/-- R54, R58: the words of responses and of read answers carry their fields, both ways; R55: a response is read back
as the result it carries, and any word with `fault` = 1 is read as Fault. -/
def Obligations.MessageWordsCarryTheirFields : Prop :=
  (∀ r : Rsp, Rsp.ofWord r.toWord = r ∧ r.toWord.getLsbD 64 = r.fault ∧ r.toWord.extractLsb' 0 64 = r.data) ∧
  (∀ w : RspWord, (Rsp.ofWord w).toWord = w) ∧
  (∀ m : Mrsp, Mrsp.ofWord m.toWord = m ∧ m.toWord.getLsbD 64 = m.present ∧ m.toWord.extractLsb' 0 64 = m.data) ∧
  (∀ w : MrspWord, (Mrsp.ofWord w).toWord = w) ∧
  (∀ r : Result, r.toRsp.result = r) ∧
  (∀ w : RspWord, w.getLsbD 64 = true → (Rsp.ofWord w).result = .fault)

/-! ### Operands -/

/-- R51: the four index formulas are the four slices and the one formula of `index(va, k)`; only `va[47:12]` matters
and every index is inside a table. -/
def Obligations.IndicesAreTheirSlices : Prop :=
  ∀ va : Word,
    (∀ k : Level, (index va k).setWidth 64 = (va >>> (48 - 9 * levelNumber k)) &&& 0x1FF#64) ∧
    (∀ k : Level, index va k = va.extractLsb' (48 - 9 * levelNumber k) 9 ∧ (index va k).toNat ≤ 511) ∧
    (index va .pml4 = va.extractLsb' 39 9 ∧ index va .pdpt = va.extractLsb' 30 9 ∧
      index va .pd = va.extractLsb' 21 9 ∧ index va .pt = va.extractLsb' 12 9) ∧
    (∀ va' : Word, va.extractLsb' 12 36 = va'.extractLsb' 12 36 → ∀ k : Level, index va k = index va' k)

/-- R65 (which the spec derives from R63, R50, R51): range, independence, reassembly, packing, the source's checks. -/
def Obligations.ExtractorLaws : Prop :=
  (∀ va : Word, ∀ t, extractIndices va = t →
    (t.i1.toNat ≤ 511 ∧ t.i2.toNat ≤ 511 ∧ t.i3.toNat ≤ 511 ∧ t.i4.toNat ≤ 511) ∧
    extractIndices (va &&& 0x0000FFFFFFFFF000#64) = t ∧
    (t.i1.setWidth 64 <<< 39) ||| (t.i2.setWidth 64 <<< 30) ||| (t.i3.setWidth 64 <<< 21) |||
      (t.i4.setWidth 64 <<< 12) ||| (va &&& 0xFFF#64) = va &&& 0x0000FFFFFFFFFFFF#64 ∧
    t.i1 ++ t.i2 ++ t.i3 ++ t.i4 = va.extractLsb' 12 36) ∧
  extractIndices 0#64 = ⟨0, 0, 0, 0⟩ ∧ extractIndices 0x0000008000000000#64 = ⟨1, 0, 0, 0⟩

/-- R66: the index the walk uses at level `k` is component `k` of `extractIndices`: it is `index(va, k)`, step ISSUE
sends its read to `base_q` plus 8 times it, and so is every address of the read trace computed. -/
def Obligations.WalkUsesTheExtractor : Prop :=
  (∀ (va : Word) (k : Level), index va k = component (extractIndices va) k) ∧
  (∀ (s t : State) (a : Word), s.nextMove = .ptw → s.st = .issue → step s = .next t → t.st = .wait →
    t.memChan = .request a →
    a.toNat = s.baseQ.toNat + (component (extractIndices s.vaQ) s.lvl).toNat * 8) ∧
  (∀ (va root : Word) (img : Memory) (n : Nat) (a : Word), (reads va root img)[n]? = some a →
    ∃ k base, Reaches va root img k base ∧ levelNumber k = n + 1 ∧
      a.toNat = base.toNat + (component (extractIndices va) k).toNat * 8)

/-- R56: where each index stands in the packed data, and the two shorter forms of the packing. -/
def Obligations.PackedIndexLayout : Prop :=
  (∀ t : Indices,
    (packIndices t).extractLsb' 27 9 = t.i1 ∧ (packIndices t).extractLsb' 18 9 = t.i2 ∧
    (packIndices t).extractLsb' 9 9 = t.i3 ∧ (packIndices t).extractLsb' 0 9 = t.i4 ∧
    (packIndices t).extractLsb' 36 28 = 0#28) ∧
  (∀ va : Word,
    packIndices (extractIndices va) = (va.extractLsb' 12 36).setWidth 64 ∧
    packIndices (extractIndices va) = (va >>> 12) &&& 0xFFFFFFFFF#64)

/-- R53, R69: `idx * 8` is `{idx, 0b000}`, at most 4088; the 65-bit sum is the exact sum, its carry is "2^64 or more",
and without a carry its low 64 bits are the exact entry address. -/
def Obligations.EntryAddressIsExact : Prop :=
  ∀ (base : Word) (idx : BitVec 9),
    scaledIndex idx = idx ++ 0#3 ∧ (scaledIndex idx).toNat = idx.toNat * 8 ∧ idx.toNat * 8 ≤ 4088 ∧
    (entrySum base idx).toNat = base.toNat + idx.toNat * 8 ∧
    (carryOut (entrySum base idx) = true ↔ 2 ^ 64 ≤ base.toNat + idx.toNat * 8) ∧
    (carryOut (entrySum base idx) = false →
      (entryAddress (entrySum base idx)).toNat = base.toNat + idx.toNat * 8)

/-- R73, R74: the next base keeps bits 51:12 alone, and the reconstructor's addition is the concatenation
`{0[63:52], e4[51:12], va[11:0]}`, without a carry (the spec derives the last from R73). -/
def Obligations.ReconstructorConcatenates : Prop :=
  ∀ e va : Word,
    nextBase e = (0#12 ++ e.extractLsb' 12 40 ++ 0#12 : BitVec 64) ∧
    physicalAddress (nextBase e) va = nextBase e ||| (va &&& 0xFFF#64) ∧
    physicalAddress (nextBase e) va = (0#12 ++ e.extractLsb' 12 40 ++ va.extractLsb' 0 12 : BitVec 64)

/-! ### The two operations -/

/-- R64, R55, R56, R48, R78, R81: an idle PTW completes every EXTRACT: the response is Ok with `zext_64(va[47:12])`, the
fault tag 0, no read is made, and nothing but the registers of the request and its result changes. What the registers
hold in IDLE, these four and those that stay, is the model's own choice (log 10). -/
def Obligations.ExtractCompletes : Prop :=
  ∀ (s : State) (va root : Word), s.st = .idle →
    exec (.extract va root) s = .next { s with
      opQ := .extract
      vaQ := va
      resFault := false
      resData := (va.extractLsb' 12 36).setWidth 64
      taken := s.taken ++ [{ fault := false, data := (va.extractLsb' 12 36).setWidth 64 }] }

/-- R77, R55, R76: an idle PTW completes every TRANSLATE: the response encodes `translate(va, root, IMG)`, the reads
sent are `reads(va, root, IMG)`, the fault tag is the result's; of the rest only the registers of the request and
the walk change (what they hold in IDLE is the model's own, log 10), and the count of free values (log 4). -/
def Obligations.TranslateCompletes : Prop :=
  ∀ (s : State) (va root : Word), s.st = .idle →
    ∃ (k : Level) (base : Word) (n : Nat),
      exec (.translate va root) s = .next { s with
        opQ := .translate
        vaQ := va
        lvl := k
        baseQ := base
        resFault := decide (translateVa va root s.img = .fault)
        resData := (translateVa va root s.img).toRsp.data
        readLog := s.readLog ++ reads va root s.img
        draws := n
        taken := s.taken ++ [(translateVa va root s.img).toRsp] }

/-- R106, in the form log 19 gives it (the model's choice: no step calls exec on a busy PTW): a request that comes while
another is inside the PTW is not lost and not refused. It waits on the request channel, or, where that is taken, at the
head of the requester's queue, and nothing else changes. -/
def Obligations.BusyRequestWaitsOnChannel : Prop :=
  ∀ (s : State) (i : Instr), s.st ≠ .idle →
    (s.reqChan = none → exec i s = .next { s with reqChan := some (encode i) }) ∧
    (s.reqChan ≠ none → exec i s = .next { s with offers := encode i :: s.offers })

/-- R67, R68, R73, R74: a TRANSLATE gives Ok exactly when the walk reaches level 4 and finds a present entry there,
and the physical address is that entry's masked base plus the page offset. -/
def Obligations.TranslateOkIff : Prop :=
  ∀ (va root pa : Word) (img : Memory),
    translateVa va root img = .ok pa ↔
      ∃ base e, Reaches va root img .pt base ∧ entryNumber va .pt base < 2 ^ 64 ∧
        img.entryAt (entryNumber va .pt base) = some e ∧ e.getLsbD 0 = true ∧
        pa = (e &&& 0xFFFFFFFFFF000#64) + (va &&& 0xFFF#64)

/-- R86: a TRANSLATE responds Fault exactly when one of the three causes holds at a level the walk reaches, and
F-OVERFLOW is possible at level 1 only. That a sum of 2^64 or more is a cause is the spec's decision D9 (log 7). -/
def Obligations.TranslateFaultIffCause : Prop :=
  ∀ (va root : Word) (img : Memory),
    (responseOf img (.translate va root) = { fault := true, data := 0 } ↔
      ∃ k base c, Reaches va root img k base ∧ causeHolds va img k base c) ∧
    (∀ k base, Reaches va root img k base → causeHolds va img k base .overflow → k = .pml4)

/-- R75, R89: at most one level the walk reaches has a cause, and at that level at most one cause; the walk's internal
label is that cause. -/
def Obligations.FirstCauseEndsTheWalk : Prop :=
  ∀ (va root : Word) (img : Memory) (k : Level) (base : Word) (c : Cause),
    Reaches va root img k base → causeHolds va img k base c →
      (fullWalk va root img).cause = some c ∧ (fullWalk va root img).lvl = k ∧
      ∀ k' base' c', Reaches va root img k' base' → causeHolds va img k' base' c' → k' = k ∧ base' = base ∧ c' = c

/-- R70 (the spec's decision D9, log 7), R98: a level-1 sum of 2^64 or more is a Fault without any read, and it needs a
root of 0xFFFFFFFFFFFFF008 or above. -/
def Obligations.RootOverflowReadsNothing : Prop :=
  ∀ (va root : Word) (img : Memory), 2 ^ 64 ≤ root.toNat + (index va .pml4).toNat * 8 →
    translateVa va root img = .fault ∧ reads va root img = [] ∧ 0xFFFFFFFFFFFFF008 ≤ root.toNat

/-- R76: the read at place `n` of the list is exactly the entry address of level `n + 1`, where the walk reaches that
level and the address fits in 64 bits. -/
def Obligations.ReadTraceIsEntryAddresses : Prop :=
  ∀ (va root : Word) (img : Memory) (n : Nat) (a : Word),
    (reads va root img)[n]? = some a ↔
      ∃ k base, Reaches va root img k base ∧ levelNumber k = n + 1 ∧ entryNumber va k base = a.toNat

/-- R76 (derived there), R110: a success makes four reads, F-ABSENT and F-NOTPRESENT at level `k` make `k`. -/
def Obligations.ReadCounts : Prop :=
  ∀ (va root : Word) (img : Memory),
    (∀ pa, translateVa va root img = .ok pa → (reads va root img).length = 4) ∧
    (∀ k base c, Reaches va root img k base → causeHolds va img k base c → c ≠ .overflow →
      (reads va root img).length = levelNumber k) ∧
    readsOf img (.extract va root) = []

/-- R84 (derived there), R74: a successful result has bits 63:52 zero, the page offset of the address in bits 11:0, and
bits 51:12 of the level-4 entry; so it is at most 0xFFFFFFFFFFFFF. -/
def Obligations.ResultBounds : Prop :=
  ∀ (va root pa : Word) (img : Memory), translateVa va root img = .ok pa →
    pa.extractLsb' 52 12 = 0#12 ∧ pa.extractLsb' 0 12 = va.extractLsb' 0 12 ∧ pa.toNat ≤ 0xFFFFFFFFFFFFF ∧
    ∃ base e, Reaches va root img .pt base ∧ img.entryAt (entryNumber va .pt base) = some e ∧
      pa.extractLsb' 12 40 = e.extractLsb' 12 40

/-- R55, R87, R64: no response the PTW gives has a payload with its fault tag set, EXTRACT never faults, and every
Fault of a TRANSLATE is the one word `0x1_0000000000000000`, whatever its cause and level. -/
def Obligations.FaultResponsesAreOneWord : Prop :=
  (∀ (img : Memory) (i : Instr), (responseOf img i).wellFormed = true) ∧
  (∀ (img : Memory) (va root : Word), (responseOf img (.extract va root)).fault = false) ∧
  (∀ (img : Memory) (va root : Word), translateVa va root img = .fault →
    (responseOf img (.translate va root)).toWord = 0x10000000000000000#65)

/-! ### What does not matter -/

/-- R50, R52: virtual addresses that agree on bits 47:0 give the same response and the same reads, for both operations:
no canonical check. -/
def Obligations.UpperAddressBitsIgnored : Prop :=
  ∀ (va va' root : Word) (img : Memory), va.extractLsb' 0 48 = va'.extractLsb' 0 48 →
    responseOf img (.extract va root) = responseOf img (.extract va' root) ∧
    responseOf img (.translate va root) = responseOf img (.translate va' root) ∧
    readsOf img (.translate va root) = readsOf img (.translate va' root)

/-- R34: bits 11:1 and 63:52 of the entries have no effect on the response or on the reads. -/
def Obligations.IgnoredEntryBits : Prop :=
  ∀ (img img' : Memory) (i : Instr), sameUpToIgnoredBits img img' →
    responseOf img i = responseOf img' i ∧ readsOf img i = readsOf img' i

/-- R84 (derived there), R75: the response does not depend on the image outside the addresses read. -/
def Obligations.OnlyReadAddressesMatter : Prop :=
  ∀ (va root : Word) (img img' : Memory),
    (∀ a ∈ reads va root img, img'.read a = img.read a) →
      translateVa va root img' = translateVa va root img ∧ reads va root img' = reads va root img

/-- R22, R24 (e), R102: two idle machines with the same image answer a request alike and send the same reads, whatever
happened to each before. Of the registers, operation, address and result are then alike, and after a TRANSLATE level
and base too; what a register holds in IDLE is the model's own choice (log 10: an EXTRACT leaves level and base). -/
def Obligations.NothingCarriesOver : Prop :=
  ∀ (i : Instr) (s s' : State), s.st = .idle → s'.st = .idle → s.img = s'.img →
    ∃ t t', exec i s = .next t ∧ exec i s' = .next t' ∧
      t.taken = s.taken ++ [responseOf s.img i] ∧ t'.taken = s'.taken ++ [responseOf s.img i] ∧
      t.readLog = s.readLog ++ readsOf s.img i ∧ t'.readLog = s'.readLog ++ readsOf s.img i ∧
      t.opQ = t'.opQ ∧ t.vaQ = t'.vaQ ∧ t.resFault = t'.resFault ∧ t.resData = t'.resData ∧
      (i.op = .translate → t.lvl = t'.lvl ∧ t.baseQ = t'.baseQ)

/-! ### One step -/

/-- R9, R82 and log 1: with prompt agents, an idle PTW's step runs the decoded request of the request channel, which
comes off the channel. The form of a step is the model's choice (log 1). -/
def Obligations.StepRunsDecodedRequest : Prop :=
  ∀ (s : State) (w : ReqWord), s.nextMove = .transact → s.st = .idle → s.reqChan = some w →
    step s = exec (decode w) { s with reqChan := none, agenda := s.schedule.tail }

/-- Log 11 (the model's choice): a word of the table placed where the step takes its request is the one it runs. -/
def Obligations.PlacedWordRuns : Prop :=
  ∀ (s : State) (nbits w : Nat), w < 2 ^ nbits → w < 2 ^ 129 →
    ∃ i, decodeTableWord nbits w = some i ∧
      step (s.withFetchWord nbits w) =
        exec i { s with st := .idle, memChan := .empty, reqChan := none, agenda := [], cycle := [] }

/-- R78: step ACCEPT. -/
def Obligations.AcceptStepEffect : Prop :=
  ∀ (s : State) (w : ReqWord), s.nextMove = .ptw → s.st = .idle → s.reqChan = some w →
    (∀ va root, decode w = .extract va root →
      step s = .next { s with
        reqChan := none, opQ := .extract, vaQ := va, resFault := false
        resData := (va.extractLsb' 12 36).setWidth 64, st := .resp, agenda := s.schedule.tail }) ∧
    (∀ va root, decode w = .translate va root →
      step s = .next { s with
        reqChan := none, opQ := .translate, vaQ := va, baseQ := root, lvl := .pml4, st := .issue
        agenda := s.schedule.tail })

/-- R79: step ISSUE, the sum as an exact number. -/
def Obligations.IssueStepEffect : Prop :=
  ∀ s : State, s.nextMove = .ptw → s.st = .issue →
    (2 ^ 64 ≤ entryNumber s.vaQ s.lvl s.baseQ →
      step s = .next { s with resFault := true, resData := 0, st := .resp, agenda := s.schedule.tail }) ∧
    (∀ a : Word, entryNumber s.vaQ s.lvl s.baseQ = a.toNat →
      step s = .next { s with
        memChan := .request a, readLog := s.readLog ++ [a], st := .wait, agenda := s.schedule.tail })

/-- R80: step TAKE, cases (i) to (iv), and the wait while the answer is not there. -/
def Obligations.TakeStepEffect : Prop :=
  ∀ s : State, s.nextMove = .ptw → s.st = .wait →
    (∀ m, s.memChan = .answer m → m.present = false ∨ m.data.getLsbD 0 = false →
      step s = .next { s with
        memChan := .empty, resFault := true, resData := 0, st := .resp, agenda := s.schedule.tail }) ∧
    (∀ m k, s.memChan = .answer m → m.present = true → m.data.getLsbD 0 = true →
      levelNumber k = levelNumber s.lvl + 1 →
      step s = .next { s with
        memChan := .empty, baseQ := m.data &&& 0xFFFFFFFFFF000#64, lvl := k, st := .issue
        agenda := s.schedule.tail }) ∧
    (∀ m, s.memChan = .answer m → m.present = true → m.data.getLsbD 0 = true → levelNumber s.lvl = 4 →
      step s = .next { s with
        memChan := .empty, resFault := false
        resData := (m.data &&& 0xFFFFFFFFFF000#64) + (s.vaQ.extractLsb' 0 12).setWidth 64
        st := .resp, agenda := s.schedule.tail }) ∧
    (∀ a, s.memChan = .request a → step s = .next { s with agenda := s.schedule.tail })

/-- R81: step RESPOND gives the requester the response and goes to IDLE; while the requester does not take the response
the PTW holds it and accepts nothing. That every register keeps its contents in IDLE is the model's own choice
(log 10). -/
def Obligations.RespondStepEffect : Prop :=
  ∀ s : State, s.st = .resp →
    (s.nextMove = .take →
      step s = .next { s with
        st := .idle, taken := s.taken ++ [{ fault := s.resFault, data := s.resData }], agenda := s.schedule.tail }) ∧
    (s.nextMove = .ptw → step s = .next { s with agenda := s.schedule.tail })

/-- R31: M-ANSWER, with the free value of log 4 for an absent address. -/
def Obligations.MemoryAgentAnswers : Prop :=
  ∀ (s : State) (a : Word), s.nextMove = .memAnswer → s.memChan = .request a →
    (∀ e, s.img.entryAt a.toNat = some e →
      step s = .next { s with memChan := .answer { present := true, data := e }, agenda := s.schedule.tail }) ∧
    (s.img.entryAt a.toNat = none → ∃ (d : Word) (n : Nat),
      step s = .next { s with
        memChan := .answer { present := false, data := d }, draws := n, agenda := s.schedule.tail })

/-- R31: the memory agent never answers without a read request, and never twice. -/
def Obligations.MemoryAgentNeverVolunteers : Prop :=
  ∀ s : State, s.nextMove = .memAnswer → (∀ a, s.memChan ≠ .request a) →
    step s = .next { s with agenda := s.schedule.tail }

/-- R82: the requester puts its next request on an empty request channel, and on no other. -/
def Obligations.RequesterOffersInOrder : Prop :=
  ∀ (s : State) (w : ReqWord) (ws : List ReqWord), s.nextMove = .offer → s.offers = w :: ws →
    (s.reqChan = none → step s = .next { s with reqChan := some w, offers := ws, agenda := s.schedule.tail }) ∧
    (s.reqChan ≠ none → step s = .next { s with agenda := s.schedule.tail })

/-! ### Reset and signals -/

/-- R100: the reset state is idle, its channels are empty, it sends nothing and is ready, and until a request arrives
no move changes it. That a reset gives the very same registers again rests on the model's own values (logs 2 and 9). -/
def Obligations.ResetStateIsIdleAndQuiet : Prop :=
  State.reset.st = .idle ∧ State.reset.memChan = .empty ∧ State.reset.rspChan = none ∧
  State.reset.rspValid = false ∧ State.reset.memReqValid = false ∧ State.reset.reqReady false = true ∧
  (∀ m : Move, runMove m State.reset = .next State.reset) ∧ (∀ s : State, s.resetPtw.img = s.img)

/-- R99, R100, R101: a reset, or an edge with `rst` = 1, goes to IDLE from any state with the memory and response
channels empty; a held request gets no response, an offered one stays offered, the image stays. That the
model's own records (`taken`, `readLog`, `draws`) outlast a reset is log 9; that an edge with `rst` = 1 neither takes a
response nor sends a read whose `valid` and `ready` are both 1 there is the model's own choice (log 23). -/
def Obligations.ResetDropsHeldRequest : Prop :=
  ∀ (s : State) (p : Pins), s.nextMove = .reset ∨ s.nextMove = .edge p ∧ p.rst = true →
    ∃ t, step s = .next t ∧ t.st = .idle ∧ t.memChan = .empty ∧ t.rspChan = none ∧ t.taken = s.taken ∧
      t.readLog = s.readLog ∧ t.reqChan = s.reqChan ∧ t.offers = s.offers ∧ t.img = s.img ∧
      t.agenda = s.schedule.tail ∧ t.draws = s.draws

/-- R59: at an edge without reset each channel transfers its message exactly when its `valid` and `ready` are both 1. -/
def Obligations.HandshakesTransfer : Prop :=
  ∀ (s t : State) (p : Pins), Coherent s → p.rst = false → runMove (.edge p) s = .next t →
    (t.reqChan = if s.reqValid && s.reqReady p.rst then none else s.reqChan) ∧
    (t.taken = if s.rspValid && p.rspReady then s.taken ++ s.rspPort.toList else s.taken) ∧
    (t.readLog = if s.memReqValid && p.memReqReady then s.readLog ++ s.memReqAddr.toList else s.readLog) ∧
    (t.memChan = .empty ↔
      (s.memRspValid && s.memRspReady) = true ∨ s.memChan = .empty ∧ (s.memReqValid && p.memReqReady) = false)

/-! ### Invariants and whole-machine rules -/

/-- R24, R25 at reset. -/
def Obligations.ResetHasInvariants : Prop :=
  Coherent State.reset

/-- R24 (derived there), R25: every step keeps the invariants, from any state that has them. -/
def Obligations.StepKeepsInvariants : Prop :=
  ∀ s t : State, Coherent s → step s = .next t → Coherent t

/-- R85, R49, R98: no state stops the machine: every step has a next state. -/
def Obligations.EveryStepAnswers : Prop :=
  ∀ s : State, ∃ t, step s = .next t

/-- R38, R105: after any number of steps, resets among them, the image is what it was before. -/
def Obligations.ImageNeverChanges : Prop :=
  ∀ (n : Nat) (s t : State), core.run n s = .next t → t.img = s.img

/-- R12: while a walk is held the level rises by at most one a step and never falls. -/
def Obligations.LevelNeverFalls : Prop :=
  ∀ s t : State, s.st = .issue ∨ s.st = .wait → t.st = .issue ∨ t.st = .wait → step s = .next t →
    levelNumber s.lvl ≤ levelNumber t.lvl ∧ levelNumber t.lvl ≤ levelNumber s.lvl + 1

/-- R14, R13: from acceptance to response the held request's address (`va_q`) and operation (`op_q`) do not change. The
operand `root` is not among them: `base_q` takes it and the walk writes it (R15). -/
def Obligations.HeldAddressAndOperationStay : Prop :=
  ∀ s t : State, s.st ≠ .idle → t.st ≠ .idle → step s = .next t → t.vaQ = s.vaQ ∧ t.opQ = s.opQ

/-- R106, R59: while a request is inside the PTW, whatever move is made, the request offered next stays on the channel
unchanged. -/
def Obligations.OfferedRequestStays : Prop :=
  ∀ (s t : State) (w : ReqWord), s.st ≠ .idle → s.reqChan = some w → step s = .next t → t.reqChan = some w

/-- R109: while the memory agent does not answer, the PTW stays in WAIT with its read outstanding, however long: no
response, no timeout, no acceptance. With a cycle that never answers, that is for ever (93 U7; logs 1 and 8). -/
def Obligations.UnansweredReadWaits : Prop :=
  ∀ (n : Nat) (s t : State) (a : Word), s.st = .wait → s.memChan = .request a →
    onlyMoves (fun m => noReset m && !answersRead m) n s → core.run n s = .next t →
      t.st = .wait ∧ t.memChan = .request a ∧ t.taken = s.taken ∧ t.readLog = s.readLog ∧
      (∀ w, s.reqChan = some w → t.reqChan = some w)

/-- R107, R81: while the requester does not take the response it is offered unchanged and nothing is accepted, however
long. With a cycle that never takes, the block is stopped for good (93 U8; logs 1 and 8). -/
def Obligations.UntakenResponseHolds : Prop :=
  ∀ (n : Nat) (s t : State), s.st = .resp → onlyMoves (fun m => noReset m && !takesResponse m) n s →
    core.run n s = .next t →
      t.st = .resp ∧ t.rspChan = s.rspChan ∧ t.taken = s.taken ∧ (∀ w, s.reqChan = some w → t.reqChan = some w)

/-- R109, R107: under the fairness of M-ANSWER and the requester's duty, which are premises on the schedule, a request
on the channel of an idle PTW gets its response after finitely many moves, by micro-steps or by clock edges. That the
PTW moves again and again, at clock edges with `mem_req_ready` = 1, is a third premise, the model's own choice: the spec
nowhere says that the memory agent must take a read request (log 24). -/
def Obligations.FairSchedulesAnswer : Prop :=
  ∀ (σ : Nat → Move) (s : State) (w : ReqWord), Coherent s → s.st = .idle → s.reqChan = some w → Fair σ s →
    ∃ n t, alongSchedule σ n s = .next t ∧ t.st = .idle ∧ t.taken = s.taken ++ [responseOf s.img (decode w)]

/-! ### The two levels agree -/

/-- R83: the micro-steps of the prompt schedule come to exactly the state of the transaction: response, reads, and the
registers, whose contents in IDLE are the model's own choice at both levels (log 10). -/
def Obligations.MicroStepsAgreeWithTransaction : Prop :=
  ∀ (s : State) (w : ReqWord), Coherent s → s.st = .idle → s.reqChan = some w →
    follow promptSchedule s = exec (decode w) { s with reqChan := none, agenda := [] }

/-- R82, 93 U15: no schedule without a reset, of micro-steps, clock edges with any `ready` or transactions, changes what
the held request comes to. As long as its response is not taken the request is still held, and finishing it gives the
same state, but for the requests offered meanwhile; once it is taken, that response and those reads stand in the
outcome. What the registers hold in IDLE is the model's own choice (log 10). -/
def Obligations.ScheduleDoesNotMatter : Prop :=
  ∀ (ms : List Move) (s t u : State), Coherent s → s.st ≠ .idle → ms.all noReset = true → follow ms s = .next t →
    step { s with agenda := [], cycle := [] } = .next u →
      (t.taken = s.taken → t.st ≠ .idle ∧
        step { t with agenda := [], cycle := [] } = .next { u with reqChan := t.reqChan, offers := t.offers }) ∧
      (t.taken ≠ s.taken → u.taken <+: t.taken ∧ u.readLog <+: t.readLog)

/-- R83, R82, R59: after any schedule without a reset, of micro-steps, clock edges with any `ready` or transactions, the
responses taken are those of the pure function, of the first requests, in order, one each; an idle PTW has sent exactly
their reads, in order, and has the other requests left; a busy one is held up in the next request, and what it has sent
is a beginning of that request's reads after theirs. -/
def Obligations.EveryScheduleGivesTheResponses : Prop :=
  ∀ (ms : List Move) (s t : State), Coherent s → s.st = .idle → ms.all noReset = true → follow ms s = .next t →
    ∃ served : List ReqWord,
      t.taken = s.taken ++ served.map (fun w => responseOf s.img (decode w)) ∧
      (t.st = .idle → toServe s = served ++ toServe t ∧
        t.readLog = s.readLog ++ (served.map fun w => readsOf s.img (decode w)).flatten) ∧
      (t.st ≠ .idle → ∃ w sent, toServe s = served ++ w :: toServe t ∧ sent <+: readsOf s.img (decode w) ∧
        t.readLog = s.readLog ++ (served.map fun w => readsOf s.img (decode w)).flatten ++ sent)

/-- R110 (derived there): the micro-steps and reads of a request: 2 and 0 for an EXTRACT; for a TRANSLATE 10 and 4 where
it succeeds, `2k + 2` and `k` where F-ABSENT or F-NOTPRESENT ends it at level `k`, 3 and 0 for F-OVERFLOW. The schedule
of that many micro-steps, with the memory agent's answers between, brings the response and sends the reads; every move
of it is a step and no wait, the PTW is not idle before its end, and has no response before the last move. -/
def Obligations.MicroStepCounts : Prop :=
  ∀ (s : State) (w : ReqWord) (ms : List Move) (reads micro : Nat),
    Coherent s → s.st = .idle → s.reqChan = some w →
    ((decode w).op = .extract ∧ ms = [.ptw, .take] ∧ reads = 0 ∧ micro = 2 ∨
      ∃ va root, decode w = .translate va root ∧
        ((∃ pa, translateVa va root s.img = .ok pa) ∧ ms = roundsSchedule 4 ∧ reads = 4 ∧ micro = 10 ∨
          (∃ k base c, Reaches va root s.img k base ∧ causeHolds va s.img k base c ∧ c ≠ .overflow ∧
            ms = roundsSchedule (levelNumber k) ∧ reads = levelNumber k ∧ micro = 2 * levelNumber k + 2) ∨
          causeHolds va s.img .pml4 root .overflow ∧ ms = [.ptw, .ptw, .take] ∧ reads = 0 ∧ micro = 3)) →
    microSteps ms = micro ∧
    (∃ t sent, follow ms s = .next t ∧ t.st = .idle ∧ t.taken = s.taken ++ [responseOf s.img (decode w)] ∧
      t.readLog = s.readLog ++ sent ∧ sent = readsOf s.img (decode w) ∧ sent.length = reads) ∧
    (∀ n, n < ms.length → ∃ t u, follow (ms.take n) s = .next t ∧ follow (ms.take (n + 1)) s = .next u ∧ u ≠ t ∧
      (0 < n → t.st ≠ .idle) ∧ (n + 1 < ms.length → t.st ≠ .resp))

/-- R112, R106: a run over any image and any finite list of requests, loaded as log 11 says, ends idle with empty
channels, with one response for each request, in order, the reads of each in order, and the image as it was. That it
ends after two steps a request is the model's own count: agenda and cycle are empty, so all agents are prompt (log 1). -/
def Obligations.BatchAnswersInOrder : Prop :=
  ∀ (img : Memory) (ws : List ReqWord), ∃ t,
    core.run (2 * ws.length) { State.reset with img := img, offers := ws } = .next t ∧
      t.st = .idle ∧ t.reqChan = none ∧ t.memChan = .empty ∧ t.offers = [] ∧ t.img = img ∧
      t.taken = ws.map (fun w => responseOf img (decode w)) ∧
      t.readLog = (ws.map fun w => readsOf img (decode w)).flatten

/-- R112, R83: the same outcome by micro-steps alone, over a well-formed image, image and requests loaded as log 11
says. -/
def Obligations.BatchBySequencer : Prop :=
  ∀ (img : Memory) (ws : List ReqWord), img.wf = true → ∃ t,
    follow (batchSchedule ws.length) { State.reset with img := img, offers := ws } = .next t ∧
      t.st = .idle ∧ t.reqChan = none ∧ t.memChan = .empty ∧ t.offers = [] ∧ t.img = img ∧
      t.taken = ws.map (fun w => responseOf img (decode w)) ∧
      t.readLog = (ws.map fun w => readsOf img (decode w)).flatten

/-! ### The image and the text forms -/

/-- R25: two images in canonical form that answer every read alike are the same image, and a number of 2^64 or more is
a key of neither (the form is the model's, log 3). -/
def Obligations.CanonicalImagesAreEqual : Prop :=
  ∀ m m' : Memory, m.wf = true → m'.wf = true →
    ((∀ a : Word, m.read a = m'.read a) → m = m') ∧ (∀ a : Nat, 2 ^ 64 ≤ a → m.entryAt a = none)

/-- R61 on the source's worked examples S1 (both checks), S2 and S3 (spec/95_test_vectors.md): the results of TRANSLATE
in the writer's text, those of EXTRACT in the spec's tuple notation (D24, 91 N17), which is no writer's text (log 20). -/
def Obligations.SourceExamplesInText : Prop :=
  responseText [(0, 0x1001#64), (0x1000, 0x2001#64), (0x2000, 0x3001#64), (0x3000, 0x4001#64)]
    (.translate 0#64 0#64) = "16384" ∧
  responseText [(0, 0x1001#64), (0x2000, 0x3001#64), (0x3000, 0x4001#64)] (.translate 0#64 0#64) = "fault" ∧
  responseText [] (.extract 0#64 0#64) = "(0, 0, 0, 0)" ∧
  responseText [] (.extract 0x0000008000000000#64 0#64) = "(1, 0, 0, 0)"
end

