-- ==== Sys2Proof/Laws/Encoding.lean ====
section
/-! SUPPORT. The fields of a word that is put together from fields, and the decoder by its one bit. -/

namespace Sys2Proof

theorem decode_of_clear {w : ReqWord} (h : w.getLsbD 128 = false) :
    decode w = .extract (decodeVa w) (decodeRoot w) := by
  unfold decode decodeOp; rw [h]; rfl

theorem decode_of_set {w : ReqWord} (h : w.getLsbD 128 = true) :
    decode w = .translate (decodeVa w) (decodeRoot w) := by
  unfold decode decodeOp; rw [h]; rfl

theorem decodeVa_append (op : BitVec 1) (root va : Word) : decodeVa (op ++ root ++ va) = va := by
  apply BitVec.eq_of_getLsbD_eq
  intro i hi
  simp only [decodeVa, BitVec.getLsbD_extractLsb', BitVec.getLsbD_append, hi, Nat.zero_add, decide_true,
    Bool.true_and, if_true]

theorem decodeRoot_append (op : BitVec 1) (root va : Word) : decodeRoot (op ++ root ++ va) = root := by
  apply BitVec.eq_of_getLsbD_eq
  intro i hi
  have h1 : ¬ 64 + i < 64 := by omega
  have h2 : 64 + i - 64 = i := by omega
  simp only [decodeRoot, BitVec.getLsbD_extractLsb', BitVec.getLsbD_append, hi, h1, h2, decide_true,
    Bool.true_and, if_true, if_false]

theorem opBit_append (op : BitVec 1) (root va : Word) : (op ++ root ++ va).getLsbD 128 = op.getLsbD 0 := by
  simp only [BitVec.getLsbD_append]
  simp

end Sys2Proof
end

