-- ==== Sys2Proof/Laws/Memory.lean ====
section
/-! SUPPORT. The image: reading, the loader's insertion, and the canonical form. -/

namespace Sys2Proof.Machine

theorem Memory.wfFrom_cons {lo k : Nat} {v : Word} {m : Memory} :
    Memory.wfFrom lo ((k, v) :: m) = true ↔ lo ≤ k ∧ k < 2 ^ 64 ∧ Memory.wfFrom (k + 1) m = true := by
  simp [Memory.wfFrom, and_assoc]

theorem Memory.wfFrom_mono {lo lo' : Nat} (h : lo' ≤ lo) :
    ∀ {m : Memory}, Memory.wfFrom lo m = true → Memory.wfFrom lo' m = true
  | [], _ => rfl
  | (_, _) :: _, hm => by
    rw [Memory.wfFrom_cons] at hm ⊢
    exact ⟨h.trans hm.1, hm.2⟩

/-- No key lies below the bound of the canonical form. -/
theorem Memory.entryAt_below {a : Nat} :
    ∀ {lo : Nat} {m : Memory}, Memory.wfFrom lo m = true → a < lo → m.entryAt a = none
  | _, [], _, _ => rfl
  | _, (k, _) :: m, hm, ha => by
    rw [Memory.wfFrom_cons] at hm
    have hk : k ≠ a := by omega
    simp only [Memory.entryAt, hk, if_false]
    exact Memory.entryAt_below hm.2.2 (by omega)

/-- No key needs more than 64 bits. -/
theorem Memory.entryAt_above {a : Nat} (ha : 2 ^ 64 ≤ a) :
    ∀ {lo : Nat} {m : Memory}, Memory.wfFrom lo m = true → m.entryAt a = none
  | _, [], _ => rfl
  | _, (k, _) :: m, hm => by
    rw [Memory.wfFrom_cons] at hm
    have hk : k ≠ a := by omega
    simp only [Memory.entryAt, hk, if_false]
    exact Memory.entryAt_above ha hm.2.2

/-- The loader's insertion keeps the canonical form. -/
theorem Memory.loadEntry_wfFrom {a v : Word} :
    ∀ {lo : Nat} {m : Memory}, lo ≤ a.toNat → Memory.wfFrom lo m = true → Memory.wfFrom lo (m.loadEntry a v) = true
  | _, [], hlo, _ => by
    have := a.isLt
    simp only [Memory.loadEntry, Memory.wfFrom_cons]
    exact ⟨hlo, this, rfl⟩
  | _, (k, w) :: m, hlo, hm => by
    have := a.isLt
    rw [Memory.wfFrom_cons] at hm
    simp only [Memory.loadEntry]
    split
    · simp only [Memory.wfFrom_cons]
      exact ⟨hlo, this, by omega, hm.2.1, hm.2.2⟩
    · split
      · rw [Memory.wfFrom_cons]
        exact hm
      · rw [Memory.wfFrom_cons]
        exact ⟨hm.1, hm.2.1, Memory.loadEntry_wfFrom (by omega) hm.2.2⟩

theorem Memory.loadEntry_wf {m : Memory} (a v : Word) (h : m.wf = true) : (m.loadEntry a v).wf = true :=
  Memory.loadEntry_wfFrom (Nat.zero_le _) h

/-- An image the loader built is in canonical form. -/
theorem Memory.ofPairs_wf (pairs : List (Word × Word)) : (Memory.ofPairs pairs).wf = true := by
  have key : ∀ (ps : List (Word × Word)) (m : Memory), m.wf = true →
      (ps.foldl (fun m p => m.loadEntry p.1 p.2) m).wf = true := by
    intro ps
    induction ps with
    | nil => intro m h; exact h
    | cons p ps ih => intro m h; exact ih _ (Memory.loadEntry_wf p.1 p.2 h)
  exact key pairs [] rfl

/-- A read after an insertion at an address the image did not hold gives the value inserted. -/
theorem Memory.read_loadEntry_self {a v : Word} :
    ∀ {lo : Nat} {m : Memory}, Memory.wfFrom lo m = true → m.read a = none → (m.loadEntry a v).read a = some v
  | _, [], _, _ => by simp [Memory.loadEntry, Memory.read, Memory.entryAt]
  | _, (k, w) :: m, hm, hn => by
    rw [Memory.wfFrom_cons] at hm
    simp only [Memory.read, Memory.entryAt] at hn
    by_cases hk : k = a.toNat
    · simp [hk] at hn
    · simp only [hk, if_false] at hn
      have hk' : ¬ a.toNat = k := fun h => hk h.symm
      simp only [Memory.loadEntry, hk', if_false]
      split
      · simp [Memory.read, Memory.entryAt]
      · simp only [Memory.read, Memory.entryAt, hk, if_false]
        exact Memory.read_loadEntry_self hm.2.2 hn

/-- An insertion leaves every other address alone. -/
theorem Memory.read_loadEntry_other {a b v : Word} (hab : a ≠ b) :
    ∀ {m : Memory}, (m.loadEntry a v).read b = m.read b
  | [] => by
    have : a.toNat ≠ b.toNat := fun h => hab (BitVec.eq_of_toNat_eq h)
    simp [Memory.loadEntry, Memory.read, Memory.entryAt, this]
  | (k, w) :: m => by
    have hne : a.toNat ≠ b.toNat := fun h => hab (BitVec.eq_of_toNat_eq h)
    simp only [Memory.loadEntry]
    split
    · simp [Memory.read, Memory.entryAt, hne]
    · split
      · have : k ≠ b.toNat := by omega
        simp [Memory.read, Memory.entryAt, this]
      · have ih := Memory.read_loadEntry_other (v := v) hab (m := m)
        simp only [Memory.read, Memory.entryAt] at ih ⊢
        rw [ih]

end Sys2Proof.Machine
end

