-- ==== Sys2Proof/Laws/State.lean ====
section
/-! SUPPORT. One lemma per field per update of State, so that no later proof unfolds a record update. -/

namespace Sys2Proof.Machine

/-! ### respondOk -/

@[simp] theorem State.respondOk_st (v : Word) (s : State) : (s.respondOk v).st = .resp := rfl
@[simp] theorem State.respondOk_lvl (v : Word) (s : State) : (s.respondOk v).lvl = s.lvl := rfl
@[simp] theorem State.respondOk_opQ (v : Word) (s : State) : (s.respondOk v).opQ = s.opQ := rfl
@[simp] theorem State.respondOk_vaQ (v : Word) (s : State) : (s.respondOk v).vaQ = s.vaQ := rfl
@[simp] theorem State.respondOk_baseQ (v : Word) (s : State) : (s.respondOk v).baseQ = s.baseQ := rfl
@[simp] theorem State.respondOk_resFault (v : Word) (s : State) : (s.respondOk v).resFault = false := rfl
@[simp] theorem State.respondOk_resData (v : Word) (s : State) : (s.respondOk v).resData = v := rfl
@[simp] theorem State.respondOk_reqChan (v : Word) (s : State) : (s.respondOk v).reqChan = s.reqChan := rfl
@[simp] theorem State.respondOk_memChan (v : Word) (s : State) : (s.respondOk v).memChan = s.memChan := rfl
@[simp] theorem State.respondOk_img (v : Word) (s : State) : (s.respondOk v).img = s.img := rfl
@[simp] theorem State.respondOk_offers (v : Word) (s : State) : (s.respondOk v).offers = s.offers := rfl
@[simp] theorem State.respondOk_taken (v : Word) (s : State) : (s.respondOk v).taken = s.taken := rfl
@[simp] theorem State.respondOk_readLog (v : Word) (s : State) : (s.respondOk v).readLog = s.readLog := rfl
@[simp] theorem State.respondOk_draws (v : Word) (s : State) : (s.respondOk v).draws = s.draws := rfl
@[simp] theorem State.respondOk_agenda (v : Word) (s : State) : (s.respondOk v).agenda = s.agenda := rfl
@[simp] theorem State.respondOk_cycle (v : Word) (s : State) : (s.respondOk v).cycle = s.cycle := rfl

/-! ### raiseFault -/

@[simp] theorem State.raiseFault_st (s : State) : (s.raiseFault).st = .resp := rfl
@[simp] theorem State.raiseFault_lvl (s : State) : (s.raiseFault).lvl = s.lvl := rfl
@[simp] theorem State.raiseFault_opQ (s : State) : (s.raiseFault).opQ = s.opQ := rfl
@[simp] theorem State.raiseFault_vaQ (s : State) : (s.raiseFault).vaQ = s.vaQ := rfl
@[simp] theorem State.raiseFault_baseQ (s : State) : (s.raiseFault).baseQ = s.baseQ := rfl
@[simp] theorem State.raiseFault_resFault (s : State) : (s.raiseFault).resFault = true := rfl
@[simp] theorem State.raiseFault_resData (s : State) : (s.raiseFault).resData = 0 := rfl
@[simp] theorem State.raiseFault_reqChan (s : State) : (s.raiseFault).reqChan = s.reqChan := rfl
@[simp] theorem State.raiseFault_memChan (s : State) : (s.raiseFault).memChan = s.memChan := rfl
@[simp] theorem State.raiseFault_img (s : State) : (s.raiseFault).img = s.img := rfl
@[simp] theorem State.raiseFault_offers (s : State) : (s.raiseFault).offers = s.offers := rfl
@[simp] theorem State.raiseFault_taken (s : State) : (s.raiseFault).taken = s.taken := rfl
@[simp] theorem State.raiseFault_readLog (s : State) : (s.raiseFault).readLog = s.readLog := rfl
@[simp] theorem State.raiseFault_draws (s : State) : (s.raiseFault).draws = s.draws := rfl
@[simp] theorem State.raiseFault_agenda (s : State) : (s.raiseFault).agenda = s.agenda := rfl
@[simp] theorem State.raiseFault_cycle (s : State) : (s.raiseFault).cycle = s.cycle := rfl

/-! ### sendRead -/

@[simp] theorem State.sendRead_st (a : Word) (s : State) : (s.sendRead a).st = s.st := rfl
@[simp] theorem State.sendRead_lvl (a : Word) (s : State) : (s.sendRead a).lvl = s.lvl := rfl
@[simp] theorem State.sendRead_opQ (a : Word) (s : State) : (s.sendRead a).opQ = s.opQ := rfl
@[simp] theorem State.sendRead_vaQ (a : Word) (s : State) : (s.sendRead a).vaQ = s.vaQ := rfl
@[simp] theorem State.sendRead_baseQ (a : Word) (s : State) : (s.sendRead a).baseQ = s.baseQ := rfl
@[simp] theorem State.sendRead_resFault (a : Word) (s : State) : (s.sendRead a).resFault = s.resFault := rfl
@[simp] theorem State.sendRead_resData (a : Word) (s : State) : (s.sendRead a).resData = s.resData := rfl
@[simp] theorem State.sendRead_reqChan (a : Word) (s : State) : (s.sendRead a).reqChan = s.reqChan := rfl
@[simp] theorem State.sendRead_memChan (a : Word) (s : State) : (s.sendRead a).memChan = .request a := rfl
@[simp] theorem State.sendRead_img (a : Word) (s : State) : (s.sendRead a).img = s.img := rfl
@[simp] theorem State.sendRead_offers (a : Word) (s : State) : (s.sendRead a).offers = s.offers := rfl
@[simp] theorem State.sendRead_taken (a : Word) (s : State) : (s.sendRead a).taken = s.taken := rfl
@[simp] theorem State.sendRead_readLog (a : Word) (s : State) : (s.sendRead a).readLog = s.readLog ++ [a] := rfl
@[simp] theorem State.sendRead_draws (a : Word) (s : State) : (s.sendRead a).draws = s.draws := rfl
@[simp] theorem State.sendRead_agenda (a : Word) (s : State) : (s.sendRead a).agenda = s.agenda := rfl
@[simp] theorem State.sendRead_cycle (a : Word) (s : State) : (s.sendRead a).cycle = s.cycle := rfl

/-! ### resetPtw -/

@[simp] theorem State.resetPtw_st (s : State) : (s.resetPtw).st = .idle := rfl
@[simp] theorem State.resetPtw_lvl (s : State) : (s.resetPtw).lvl = .pml4 := rfl
@[simp] theorem State.resetPtw_opQ (s : State) : (s.resetPtw).opQ = .extract := rfl
@[simp] theorem State.resetPtw_vaQ (s : State) : (s.resetPtw).vaQ = 0 := rfl
@[simp] theorem State.resetPtw_baseQ (s : State) : (s.resetPtw).baseQ = 0 := rfl
@[simp] theorem State.resetPtw_resFault (s : State) : (s.resetPtw).resFault = false := rfl
@[simp] theorem State.resetPtw_resData (s : State) : (s.resetPtw).resData = 0 := rfl
@[simp] theorem State.resetPtw_reqChan (s : State) : (s.resetPtw).reqChan = s.reqChan := rfl
@[simp] theorem State.resetPtw_memChan (s : State) : (s.resetPtw).memChan = .empty := rfl
@[simp] theorem State.resetPtw_img (s : State) : (s.resetPtw).img = s.img := rfl
@[simp] theorem State.resetPtw_offers (s : State) : (s.resetPtw).offers = s.offers := rfl
@[simp] theorem State.resetPtw_taken (s : State) : (s.resetPtw).taken = s.taken := rfl
@[simp] theorem State.resetPtw_readLog (s : State) : (s.resetPtw).readLog = s.readLog := rfl
@[simp] theorem State.resetPtw_draws (s : State) : (s.resetPtw).draws = s.draws := rfl
@[simp] theorem State.resetPtw_agenda (s : State) : (s.resetPtw).agenda = s.agenda := rfl
@[simp] theorem State.resetPtw_cycle (s : State) : (s.resetPtw).cycle = s.cycle := rfl

/-! ### withImage -/

@[simp] theorem State.withImage_st (m : Memory) (s : State) : (s.withImage m).st = s.st := rfl
@[simp] theorem State.withImage_lvl (m : Memory) (s : State) : (s.withImage m).lvl = s.lvl := rfl
@[simp] theorem State.withImage_opQ (m : Memory) (s : State) : (s.withImage m).opQ = s.opQ := rfl
@[simp] theorem State.withImage_vaQ (m : Memory) (s : State) : (s.withImage m).vaQ = s.vaQ := rfl
@[simp] theorem State.withImage_baseQ (m : Memory) (s : State) : (s.withImage m).baseQ = s.baseQ := rfl
@[simp] theorem State.withImage_resFault (m : Memory) (s : State) : (s.withImage m).resFault = s.resFault := rfl
@[simp] theorem State.withImage_resData (m : Memory) (s : State) : (s.withImage m).resData = s.resData := rfl
@[simp] theorem State.withImage_reqChan (m : Memory) (s : State) : (s.withImage m).reqChan = s.reqChan := rfl
@[simp] theorem State.withImage_memChan (m : Memory) (s : State) : (s.withImage m).memChan = s.memChan := rfl
@[simp] theorem State.withImage_img (m : Memory) (s : State) : (s.withImage m).img = m := rfl
@[simp] theorem State.withImage_offers (m : Memory) (s : State) : (s.withImage m).offers = s.offers := rfl
@[simp] theorem State.withImage_taken (m : Memory) (s : State) : (s.withImage m).taken = s.taken := rfl
@[simp] theorem State.withImage_readLog (m : Memory) (s : State) : (s.withImage m).readLog = s.readLog := rfl
@[simp] theorem State.withImage_draws (m : Memory) (s : State) : (s.withImage m).draws = s.draws := rfl
@[simp] theorem State.withImage_agenda (m : Memory) (s : State) : (s.withImage m).agenda = s.agenda := rfl
@[simp] theorem State.withImage_cycle (m : Memory) (s : State) : (s.withImage m).cycle = s.cycle := rfl

/-! ### withRequest -/

@[simp] theorem State.withRequest_st (w : ReqWord) (s : State) : (s.withRequest w).st = .idle := rfl
@[simp] theorem State.withRequest_lvl (w : ReqWord) (s : State) : (s.withRequest w).lvl = s.lvl := rfl
@[simp] theorem State.withRequest_opQ (w : ReqWord) (s : State) : (s.withRequest w).opQ = s.opQ := rfl
@[simp] theorem State.withRequest_vaQ (w : ReqWord) (s : State) : (s.withRequest w).vaQ = s.vaQ := rfl
@[simp] theorem State.withRequest_baseQ (w : ReqWord) (s : State) : (s.withRequest w).baseQ = s.baseQ := rfl
@[simp] theorem State.withRequest_resFault (w : ReqWord) (s : State) : (s.withRequest w).resFault = s.resFault := rfl
@[simp] theorem State.withRequest_resData (w : ReqWord) (s : State) : (s.withRequest w).resData = s.resData := rfl
@[simp] theorem State.withRequest_reqChan (w : ReqWord) (s : State) : (s.withRequest w).reqChan = some w := rfl
@[simp] theorem State.withRequest_memChan (w : ReqWord) (s : State) : (s.withRequest w).memChan = .empty := rfl
@[simp] theorem State.withRequest_img (w : ReqWord) (s : State) : (s.withRequest w).img = s.img := rfl
@[simp] theorem State.withRequest_offers (w : ReqWord) (s : State) : (s.withRequest w).offers = s.offers := rfl
@[simp] theorem State.withRequest_taken (w : ReqWord) (s : State) : (s.withRequest w).taken = s.taken := rfl
@[simp] theorem State.withRequest_readLog (w : ReqWord) (s : State) : (s.withRequest w).readLog = s.readLog := rfl
@[simp] theorem State.withRequest_draws (w : ReqWord) (s : State) : (s.withRequest w).draws = s.draws := rfl
@[simp] theorem State.withRequest_agenda (w : ReqWord) (s : State) : (s.withRequest w).agenda = [] := rfl
@[simp] theorem State.withRequest_cycle (w : ReqWord) (s : State) : (s.withRequest w).cycle = [] := rfl

/-! ### dropMove -/

@[simp] theorem State.dropMove_st (s : State) : (s.dropMove).st = s.st := rfl
@[simp] theorem State.dropMove_lvl (s : State) : (s.dropMove).lvl = s.lvl := rfl
@[simp] theorem State.dropMove_opQ (s : State) : (s.dropMove).opQ = s.opQ := rfl
@[simp] theorem State.dropMove_vaQ (s : State) : (s.dropMove).vaQ = s.vaQ := rfl
@[simp] theorem State.dropMove_baseQ (s : State) : (s.dropMove).baseQ = s.baseQ := rfl
@[simp] theorem State.dropMove_resFault (s : State) : (s.dropMove).resFault = s.resFault := rfl
@[simp] theorem State.dropMove_resData (s : State) : (s.dropMove).resData = s.resData := rfl
@[simp] theorem State.dropMove_reqChan (s : State) : (s.dropMove).reqChan = s.reqChan := rfl
@[simp] theorem State.dropMove_memChan (s : State) : (s.dropMove).memChan = s.memChan := rfl
@[simp] theorem State.dropMove_img (s : State) : (s.dropMove).img = s.img := rfl
@[simp] theorem State.dropMove_offers (s : State) : (s.dropMove).offers = s.offers := rfl
@[simp] theorem State.dropMove_taken (s : State) : (s.dropMove).taken = s.taken := rfl
@[simp] theorem State.dropMove_readLog (s : State) : (s.dropMove).readLog = s.readLog := rfl
@[simp] theorem State.dropMove_draws (s : State) : (s.dropMove).draws = s.draws := rfl
@[simp] theorem State.dropMove_agenda (s : State) : (s.dropMove).agenda = s.schedule.tail := rfl
@[simp] theorem State.dropMove_cycle (s : State) : (s.dropMove).cycle = s.cycle := rfl

/-! ### acceptExtract -/

@[simp] theorem State.acceptExtract_st (va : Word) (s : State) : (s.acceptExtract va).st = .resp := rfl
@[simp] theorem State.acceptExtract_lvl (va : Word) (s : State) : (s.acceptExtract va).lvl = s.lvl := rfl
@[simp] theorem State.acceptExtract_opQ (va : Word) (s : State) : (s.acceptExtract va).opQ = .extract := rfl
@[simp] theorem State.acceptExtract_vaQ (va : Word) (s : State) : (s.acceptExtract va).vaQ = va := rfl
@[simp] theorem State.acceptExtract_baseQ (va : Word) (s : State) : (s.acceptExtract va).baseQ = s.baseQ := rfl
@[simp] theorem State.acceptExtract_resFault (va : Word) (s : State) : (s.acceptExtract va).resFault = false := rfl
@[simp] theorem State.acceptExtract_resData (va : Word) (s : State) : (s.acceptExtract va).resData = packIndices (extractIndices va) := rfl
@[simp] theorem State.acceptExtract_reqChan (va : Word) (s : State) : (s.acceptExtract va).reqChan = s.reqChan := rfl
@[simp] theorem State.acceptExtract_memChan (va : Word) (s : State) : (s.acceptExtract va).memChan = s.memChan := rfl
@[simp] theorem State.acceptExtract_img (va : Word) (s : State) : (s.acceptExtract va).img = s.img := rfl
@[simp] theorem State.acceptExtract_offers (va : Word) (s : State) : (s.acceptExtract va).offers = s.offers := rfl
@[simp] theorem State.acceptExtract_taken (va : Word) (s : State) : (s.acceptExtract va).taken = s.taken := rfl
@[simp] theorem State.acceptExtract_readLog (va : Word) (s : State) : (s.acceptExtract va).readLog = s.readLog := rfl
@[simp] theorem State.acceptExtract_draws (va : Word) (s : State) : (s.acceptExtract va).draws = s.draws := rfl
@[simp] theorem State.acceptExtract_agenda (va : Word) (s : State) : (s.acceptExtract va).agenda = s.agenda := rfl
@[simp] theorem State.acceptExtract_cycle (va : Word) (s : State) : (s.acceptExtract va).cycle = s.cycle := rfl

/-! ### acceptTranslate -/

@[simp] theorem State.acceptTranslate_st (va root : Word) (s : State) : (s.acceptTranslate va root).st = .issue := rfl
@[simp] theorem State.acceptTranslate_lvl (va root : Word) (s : State) : (s.acceptTranslate va root).lvl = .pml4 := rfl
@[simp] theorem State.acceptTranslate_opQ (va root : Word) (s : State) : (s.acceptTranslate va root).opQ = .translate := rfl
@[simp] theorem State.acceptTranslate_vaQ (va root : Word) (s : State) : (s.acceptTranslate va root).vaQ = va := rfl
@[simp] theorem State.acceptTranslate_baseQ (va root : Word) (s : State) : (s.acceptTranslate va root).baseQ = root := rfl
@[simp] theorem State.acceptTranslate_resFault (va root : Word) (s : State) : (s.acceptTranslate va root).resFault = s.resFault := rfl
@[simp] theorem State.acceptTranslate_resData (va root : Word) (s : State) : (s.acceptTranslate va root).resData = s.resData := rfl
@[simp] theorem State.acceptTranslate_reqChan (va root : Word) (s : State) : (s.acceptTranslate va root).reqChan = s.reqChan := rfl
@[simp] theorem State.acceptTranslate_memChan (va root : Word) (s : State) : (s.acceptTranslate va root).memChan = s.memChan := rfl
@[simp] theorem State.acceptTranslate_img (va root : Word) (s : State) : (s.acceptTranslate va root).img = s.img := rfl
@[simp] theorem State.acceptTranslate_offers (va root : Word) (s : State) : (s.acceptTranslate va root).offers = s.offers := rfl
@[simp] theorem State.acceptTranslate_taken (va root : Word) (s : State) : (s.acceptTranslate va root).taken = s.taken := rfl
@[simp] theorem State.acceptTranslate_readLog (va root : Word) (s : State) : (s.acceptTranslate va root).readLog = s.readLog := rfl
@[simp] theorem State.acceptTranslate_draws (va root : Word) (s : State) : (s.acceptTranslate va root).draws = s.draws := rfl
@[simp] theorem State.acceptTranslate_agenda (va root : Word) (s : State) : (s.acceptTranslate va root).agenda = s.agenda := rfl
@[simp] theorem State.acceptTranslate_cycle (va root : Word) (s : State) : (s.acceptTranslate va root).cycle = s.cycle := rfl

/-! ### setResult -/

@[simp] theorem State.setResult_st (r : Result) (s : State) : (s.setResult r).st = .resp := by
  cases r <;> rfl
@[simp] theorem State.setResult_lvl (r : Result) (s : State) : (s.setResult r).lvl = s.lvl := by
  cases r <;> rfl
@[simp] theorem State.setResult_opQ (r : Result) (s : State) : (s.setResult r).opQ = s.opQ := by
  cases r <;> rfl
@[simp] theorem State.setResult_vaQ (r : Result) (s : State) : (s.setResult r).vaQ = s.vaQ := by
  cases r <;> rfl
@[simp] theorem State.setResult_baseQ (r : Result) (s : State) : (s.setResult r).baseQ = s.baseQ := by
  cases r <;> rfl
@[simp] theorem State.setResult_resFault (r : Result) (s : State) : (s.setResult r).resFault = faultTag r := by
  cases r <;> rfl
@[simp] theorem State.setResult_resData (r : Result) (s : State) : (s.setResult r).resData = r.toRsp.data := by
  cases r <;> rfl
@[simp] theorem State.setResult_reqChan (r : Result) (s : State) : (s.setResult r).reqChan = s.reqChan := by
  cases r <;> rfl
@[simp] theorem State.setResult_memChan (r : Result) (s : State) : (s.setResult r).memChan = s.memChan := by
  cases r <;> rfl
@[simp] theorem State.setResult_img (r : Result) (s : State) : (s.setResult r).img = s.img := by
  cases r <;> rfl
@[simp] theorem State.setResult_offers (r : Result) (s : State) : (s.setResult r).offers = s.offers := by
  cases r <;> rfl
@[simp] theorem State.setResult_taken (r : Result) (s : State) : (s.setResult r).taken = s.taken := by
  cases r <;> rfl
@[simp] theorem State.setResult_readLog (r : Result) (s : State) : (s.setResult r).readLog = s.readLog := by
  cases r <;> rfl
@[simp] theorem State.setResult_draws (r : Result) (s : State) : (s.setResult r).draws = s.draws := by
  cases r <;> rfl
@[simp] theorem State.setResult_agenda (r : Result) (s : State) : (s.setResult r).agenda = s.agenda := by
  cases r <;> rfl
@[simp] theorem State.setResult_cycle (r : Result) (s : State) : (s.setResult r).cycle = s.cycle := by
  cases r <;> rfl

/-! ### hold: what it leaves alone -/

@[simp] theorem State.hold_st (w : ReqWord) (s : State) : (s.hold w).st = s.st := by
  unfold State.hold; split <;> rfl
@[simp] theorem State.hold_lvl (w : ReqWord) (s : State) : (s.hold w).lvl = s.lvl := by
  unfold State.hold; split <;> rfl
@[simp] theorem State.hold_opQ (w : ReqWord) (s : State) : (s.hold w).opQ = s.opQ := by
  unfold State.hold; split <;> rfl
@[simp] theorem State.hold_vaQ (w : ReqWord) (s : State) : (s.hold w).vaQ = s.vaQ := by
  unfold State.hold; split <;> rfl
@[simp] theorem State.hold_baseQ (w : ReqWord) (s : State) : (s.hold w).baseQ = s.baseQ := by
  unfold State.hold; split <;> rfl
@[simp] theorem State.hold_resFault (w : ReqWord) (s : State) : (s.hold w).resFault = s.resFault := by
  unfold State.hold; split <;> rfl
@[simp] theorem State.hold_resData (w : ReqWord) (s : State) : (s.hold w).resData = s.resData := by
  unfold State.hold; split <;> rfl
@[simp] theorem State.hold_memChan (w : ReqWord) (s : State) : (s.hold w).memChan = s.memChan := by
  unfold State.hold; split <;> rfl
@[simp] theorem State.hold_img (w : ReqWord) (s : State) : (s.hold w).img = s.img := by
  unfold State.hold; split <;> rfl
@[simp] theorem State.hold_taken (w : ReqWord) (s : State) : (s.hold w).taken = s.taken := by
  unfold State.hold; split <;> rfl
@[simp] theorem State.hold_readLog (w : ReqWord) (s : State) : (s.hold w).readLog = s.readLog := by
  unfold State.hold; split <;> rfl
@[simp] theorem State.hold_draws (w : ReqWord) (s : State) : (s.hold w).draws = s.draws := by
  unfold State.hold; split <;> rfl
@[simp] theorem State.hold_agenda (w : ReqWord) (s : State) : (s.hold w).agenda = s.agenda := by
  unfold State.hold; split <;> rfl
@[simp] theorem State.hold_cycle (w : ReqWord) (s : State) : (s.hold w).cycle = s.cycle := by
  unfold State.hold; split <;> rfl

/-! ### offer: what it leaves alone -/

@[simp] theorem State.offer_st (s : State) : (s.offer).st = s.st := by
  unfold State.offer; split <;> rfl
@[simp] theorem State.offer_lvl (s : State) : (s.offer).lvl = s.lvl := by
  unfold State.offer; split <;> rfl
@[simp] theorem State.offer_opQ (s : State) : (s.offer).opQ = s.opQ := by
  unfold State.offer; split <;> rfl
@[simp] theorem State.offer_vaQ (s : State) : (s.offer).vaQ = s.vaQ := by
  unfold State.offer; split <;> rfl
@[simp] theorem State.offer_baseQ (s : State) : (s.offer).baseQ = s.baseQ := by
  unfold State.offer; split <;> rfl
@[simp] theorem State.offer_resFault (s : State) : (s.offer).resFault = s.resFault := by
  unfold State.offer; split <;> rfl
@[simp] theorem State.offer_resData (s : State) : (s.offer).resData = s.resData := by
  unfold State.offer; split <;> rfl
@[simp] theorem State.offer_memChan (s : State) : (s.offer).memChan = s.memChan := by
  unfold State.offer; split <;> rfl
@[simp] theorem State.offer_img (s : State) : (s.offer).img = s.img := by
  unfold State.offer; split <;> rfl
@[simp] theorem State.offer_taken (s : State) : (s.offer).taken = s.taken := by
  unfold State.offer; split <;> rfl
@[simp] theorem State.offer_readLog (s : State) : (s.offer).readLog = s.readLog := by
  unfold State.offer; split <;> rfl
@[simp] theorem State.offer_draws (s : State) : (s.offer).draws = s.draws := by
  unfold State.offer; split <;> rfl
@[simp] theorem State.offer_agenda (s : State) : (s.offer).agenda = s.agenda := by
  unfold State.offer; split <;> rfl
@[simp] theorem State.offer_cycle (s : State) : (s.offer).cycle = s.cycle := by
  unfold State.offer; split <;> rfl

/-! ### respond: what it leaves alone -/

@[simp] theorem State.respond_lvl (s : State) : (s.respond).lvl = s.lvl := by
  unfold State.respond; split <;> rfl
@[simp] theorem State.respond_opQ (s : State) : (s.respond).opQ = s.opQ := by
  unfold State.respond; split <;> rfl
@[simp] theorem State.respond_vaQ (s : State) : (s.respond).vaQ = s.vaQ := by
  unfold State.respond; split <;> rfl
@[simp] theorem State.respond_baseQ (s : State) : (s.respond).baseQ = s.baseQ := by
  unfold State.respond; split <;> rfl
@[simp] theorem State.respond_resFault (s : State) : (s.respond).resFault = s.resFault := by
  unfold State.respond; split <;> rfl
@[simp] theorem State.respond_resData (s : State) : (s.respond).resData = s.resData := by
  unfold State.respond; split <;> rfl
@[simp] theorem State.respond_reqChan (s : State) : (s.respond).reqChan = s.reqChan := by
  unfold State.respond; split <;> rfl
@[simp] theorem State.respond_memChan (s : State) : (s.respond).memChan = s.memChan := by
  unfold State.respond; split <;> rfl
@[simp] theorem State.respond_img (s : State) : (s.respond).img = s.img := by
  unfold State.respond; split <;> rfl
@[simp] theorem State.respond_offers (s : State) : (s.respond).offers = s.offers := by
  unfold State.respond; split <;> rfl
@[simp] theorem State.respond_readLog (s : State) : (s.respond).readLog = s.readLog := by
  unfold State.respond; split <;> rfl
@[simp] theorem State.respond_draws (s : State) : (s.respond).draws = s.draws := by
  unfold State.respond; split <;> rfl
@[simp] theorem State.respond_agenda (s : State) : (s.respond).agenda = s.agenda := by
  unfold State.respond; split <;> rfl
@[simp] theorem State.respond_cycle (s : State) : (s.respond).cycle = s.cycle := by
  unfold State.respond; split <;> rfl

/-! ### memAnswer: what it leaves alone -/

@[simp] theorem State.memAnswer_st (s : State) : (s.memAnswer).st = s.st := by
  unfold State.memAnswer; (repeat' split) <;> rfl
@[simp] theorem State.memAnswer_lvl (s : State) : (s.memAnswer).lvl = s.lvl := by
  unfold State.memAnswer; (repeat' split) <;> rfl
@[simp] theorem State.memAnswer_opQ (s : State) : (s.memAnswer).opQ = s.opQ := by
  unfold State.memAnswer; (repeat' split) <;> rfl
@[simp] theorem State.memAnswer_vaQ (s : State) : (s.memAnswer).vaQ = s.vaQ := by
  unfold State.memAnswer; (repeat' split) <;> rfl
@[simp] theorem State.memAnswer_baseQ (s : State) : (s.memAnswer).baseQ = s.baseQ := by
  unfold State.memAnswer; (repeat' split) <;> rfl
@[simp] theorem State.memAnswer_resFault (s : State) : (s.memAnswer).resFault = s.resFault := by
  unfold State.memAnswer; (repeat' split) <;> rfl
@[simp] theorem State.memAnswer_resData (s : State) : (s.memAnswer).resData = s.resData := by
  unfold State.memAnswer; (repeat' split) <;> rfl
@[simp] theorem State.memAnswer_reqChan (s : State) : (s.memAnswer).reqChan = s.reqChan := by
  unfold State.memAnswer; (repeat' split) <;> rfl
@[simp] theorem State.memAnswer_img (s : State) : (s.memAnswer).img = s.img := by
  unfold State.memAnswer; (repeat' split) <;> rfl
@[simp] theorem State.memAnswer_offers (s : State) : (s.memAnswer).offers = s.offers := by
  unfold State.memAnswer; (repeat' split) <;> rfl
@[simp] theorem State.memAnswer_taken (s : State) : (s.memAnswer).taken = s.taken := by
  unfold State.memAnswer; (repeat' split) <;> rfl
@[simp] theorem State.memAnswer_readLog (s : State) : (s.memAnswer).readLog = s.readLog := by
  unfold State.memAnswer; (repeat' split) <;> rfl
@[simp] theorem State.memAnswer_agenda (s : State) : (s.memAnswer).agenda = s.agenda := by
  unfold State.memAnswer; (repeat' split) <;> rfl
@[simp] theorem State.memAnswer_cycle (s : State) : (s.memAnswer).cycle = s.cycle := by
  unfold State.memAnswer; (repeat' split) <;> rfl

end Sys2Proof.Machine
end

