-- ==== Sys2Proof/Laws/Walk.lean ====
section
/-! SUPPORT. What the entry-address sum, one visit and the walk can do, said once. -/

namespace Sys2Proof.Machine

open Sys2Proof.Safety

/-! ### Bits -/

theorem idxMask_bit {i : Nat} (h : i < 64) : idxMask.getLsbD i = decide (i < 9) := by
  unfold idxMask
  decide +revert

/-- An index formula is a slice (R51). -/
theorem indexAt_eq_slice (va : Word) (s : Nat) : indexAt va s = va.extractLsb' s 9 := by
  apply BitVec.eq_of_getLsbD_eq
  intro i hi
  have hm := idxMask_bit (i := i) (by omega)
  simp only [indexAt, BitVec.getLsbD_setWidth, BitVec.getLsbD_and, BitVec.getLsbD_ushiftRight,
    BitVec.getLsbD_extractLsb', hm, hi, decide_true, Bool.and_true]

theorem scaledIndex_toNat (idx : BitVec 9) : (scaledIndex idx).toNat = idx.toNat * 8 := by
  have h : (scaledIndex idx).toNat = (idx ++ 0#3).toNat := rfl
  rw [h, BitVec.toNat_append]
  simp [Nat.shiftLeft_eq]

/-- The 65-bit sum is the exact sum. -/
theorem entrySum_toNat (base : Word) (idx : BitVec 9) :
    (entrySum base idx).toNat = base.toNat + idx.toNat * 8 := by
  have hi := idx.isLt
  have hb := base.isLt
  simp only [entrySum, BitVec.toNat_add, BitVec.toNat_setWidth, scaledIndex_toNat]
  omega

/-- The carry of a 65-bit number says that it is 2^64 or more. -/
theorem carryOut_eq (sum : BitVec 65) : carryOut sum = decide (2 ^ 64 ≤ sum.toNat) := by
  have h := BitVec.msb_eq_decide sum
  simpa [carryOut, BitVec.msb, BitVec.getMsbD] using h

/-! ### One visit -/

/-- The four things one level can come to, by its exact entry address (R69 to R72). -/
theorem visit_cases (img : Memory) (va : Word) (k : Level) (base : Word) :
    (2 ^ 64 ≤ entryNumber va k base ∧ visit img va k base = .overflow) ∨
    (∃ a : Word, entryNumber va k base = a.toNat ∧ carryOut (entrySum base (index va k)) = false ∧
      entryAddress (entrySum base (index va k)) = a ∧
      ((img.read a = none ∧ visit img va k base = .absent a) ∨
       (∃ e, img.read a = some e ∧ isPresent e = false ∧ visit img va k base = .notPresent a) ∨
       (∃ e, img.read a = some e ∧ isPresent e = true ∧ visit img va k base = .entry a e))) := by
  by_cases hc : 2 ^ 64 ≤ entryNumber va k base
  · refine Or.inl ⟨hc, ?_⟩
    have : carryOut (entrySum base (index va k)) = true := by
      rw [carryOut_eq, entrySum_toNat]; simpa [entryNumber] using hc
    simp [visit, this]
  · have hcar : carryOut (entrySum base (index va k)) = false := by
      rw [carryOut_eq, entrySum_toNat]; simpa [entryNumber] using hc
    refine Or.inr ⟨entryAddress (entrySum base (index va k)), ?_, hcar, rfl, ?_⟩
    · simp only [entryAddress, BitVec.toNat_setWidth, entrySum_toNat]
      simp only [entryNumber] at hc ⊢
      omega
    · simp only [visit, hcar]
      cases hr : img.read (entryAddress (entrySum base (index va k))) with
      | none => exact Or.inl ⟨rfl, by simp⟩
      | some e =>
        cases hp : isPresent e with
        | false => exact Or.inr (Or.inl ⟨e, rfl, hp, by simp [hp]⟩)
        | true => exact Or.inr (Or.inr ⟨e, rfl, hp, by simp [hp]⟩)

/-! ### The walk, level by level -/

theorem walk_last (img : Memory) (va : Word) (k : Level) (base : Word) :
    walk img va 0 k base =
      afterVisit k base (visit img va k base) fun a e => completeWalk [a] k base (physicalAddress (nextBase e) va) :=
  rfl

theorem walk_more (img : Memory) (va : Word) (n : Nat) (k : Level) (base : Word) :
    walk img va (n + 1) k base =
      afterVisit k base (visit img va k base) fun a e =>
        { walk img va n (bumpLevel k) (nextBase e) with
          reads := a :: (walk img va n (bumpLevel k) (nextBase e)).reads } :=
  rfl

/-- Either there is no next level and none is left to come, or the next level is the bumped one. -/
theorem nextLevel_cases (k : Level) :
    (k = .pt ∧ nextLevel k = none ∧ levelsAfter k = 0) ∨
    (nextLevel k = some (bumpLevel k) ∧ levelsAfter k = levelsAfter (bumpLevel k) + 1) := by
  cases k <;> simp [nextLevel, levelsAfter, bumpLevel]

/-- An entry's base has no bits outside 51:12 (R73). -/
theorem nextBase_masked (e : Word) : nextBase e &&& ~~~baseMask = 0 := by
  unfold nextBase
  rw [BitVec.and_assoc, BitVec.and_not_self]
  simp

end Sys2Proof.Machine
end

