-- ==== Sys2Proof/Laws/Sequencer.lean ====
section
/-! SUPPORT. What each micro-step can do, and that none of them changes what the held request comes to. -/

namespace Sys2Proof.Machine

open Sys2Proof.Safety

/-- The state of a level whose entry address has been sent and answered: only the log and the count have moved. -/
def State.noteRead (a : Word) (n : Nat) (s : State) : State :=
  { s with readLog := s.readLog ++ [a], draws := s.draws + n }

/-- A present entry below level 4 takes the walk to the next level (R80 iii). -/
def State.descend (e : Word) (k : Level) (s : State) : State :=
  { s with baseQ := nextBase e, lvl := k, st := .issue }

theorem finishWalk_overflow {s : State} (h : visit s.img s.vaQ s.lvl s.baseQ = .overflow) :
    s.finishWalk = s.raiseFault := by
  rcases nextLevel_cases s.lvl with ⟨_, _, hn⟩ | ⟨_, hn⟩ <;>
    simp [State.finishWalk, hn, walk_last, walk_more, h, afterVisit, stopWalk, State.setResult, State.raiseFault]

theorem finishWalk_absent {s : State} {a : Word} (h : visit s.img s.vaQ s.lvl s.baseQ = .absent a) :
    s.finishWalk = (s.noteRead a 1).raiseFault := by
  rcases nextLevel_cases s.lvl with ⟨_, _, hn⟩ | ⟨_, hn⟩ <;>
    simp [State.finishWalk, hn, walk_last, walk_more, h, afterVisit, stopWalk, State.setResult, State.raiseFault,
      State.noteRead]

theorem finishWalk_notPresent {s : State} {a : Word} (h : visit s.img s.vaQ s.lvl s.baseQ = .notPresent a) :
    s.finishWalk = (s.noteRead a 0).raiseFault := by
  rcases nextLevel_cases s.lvl with ⟨_, _, hn⟩ | ⟨_, hn⟩ <;>
    simp [State.finishWalk, hn, walk_last, walk_more, h, afterVisit, stopWalk, State.setResult, State.raiseFault,
      State.noteRead]

theorem finishWalk_lastEntry {s : State} {a e : Word} (h : visit s.img s.vaQ s.lvl s.baseQ = .entry a e)
    (hk : nextLevel s.lvl = none) :
    s.finishWalk = (s.noteRead a 0).respondOk (physicalAddress (nextBase e) s.vaQ) := by
  rcases nextLevel_cases s.lvl with ⟨_, _, hn⟩ | ⟨hn, _⟩
  · simp [State.finishWalk, hn, walk_last, h, afterVisit, completeWalk, State.setResult, State.respondOk,
      State.noteRead]
  · simp [hk] at hn

theorem finishWalk_entry {s : State} {a e : Word} {k : Level} (h : visit s.img s.vaQ s.lvl s.baseQ = .entry a e)
    (hk : nextLevel s.lvl = some k) : s.finishWalk = ((s.noteRead a 0).descend e k).finishWalk := by
  rcases nextLevel_cases s.lvl with ⟨_, hn, _⟩ | ⟨hb, hn⟩
  · simp [hk] at hn
  · have hkb : bumpLevel s.lvl = k := by simpa [hk] using hb.symm
    rw [hkb] at hn
    simp only [State.finishWalk, hn, walk_more, h, afterVisit, State.noteRead, State.descend, hkb]
    cases (walk s.img s.vaQ (levelsAfter k) k (nextBase e)).result <;>
      simp [State.setResult, State.respondOk, State.raiseFault]

/-- M-ANSWER at a key of the image (R31). -/
theorem memAnswer_present {s : State} {a e : Word} (hm : s.memChan = .request a) (hr : s.img.read a = some e) :
    s.memAnswer = { s with memChan := .answer { present := true, data := e } } := by
  simp only [State.memAnswer, hm, hr]

/-- M-ANSWER at any other address (R31). -/
theorem memAnswer_absent {s : State} {a : Word} (hm : s.memChan = .request a) (hr : s.img.read a = none) :
    s.memAnswer =
      { s with memChan := .answer { present := false, data := Config.absentData s.draws }, draws := s.draws + 1 } := by
  simp only [State.memAnswer, hm, hr]

/-- M-ANSWER without a read request (R31). -/
theorem memAnswer_nothing {s : State} (hm : ∀ a, s.memChan ≠ .request a) : s.memAnswer = s := by
  unfold State.memAnswer
  split
  · exact absurd ‹_› (hm _)
  · rfl

/-- ISSUE sends the read or raises F-OVERFLOW; the rest of the state is what it was. -/
theorem issueStep_cases (s : State) :
    (visit s.img s.vaQ s.lvl s.baseQ = .overflow ∧ s.issueStep = s.raiseFault) ∨
    (∃ a : Word, entryNumber s.vaQ s.lvl s.baseQ = a.toNat ∧ visit s.img s.vaQ s.lvl s.baseQ ≠ .overflow ∧
      s.issueStep = { s.sendRead a with st := .wait }) := by
  rcases visit_cases s.img s.vaQ s.lvl s.baseQ with ⟨hge, hv⟩ | ⟨a, ha, hc, hea, hv⟩
  · refine Or.inl ⟨hv, ?_⟩
    have : carryOut (entrySum s.baseQ (index s.vaQ s.lvl)) = true := by
      rw [carryOut_eq, entrySum_toNat]; simpa [entryNumber] using hge
    simp [State.issueStep, this]
  · refine Or.inr ⟨a, ha, ?_, by simp [State.issueStep, hc, hea]⟩
    rcases hv with ⟨_, h⟩ | ⟨_, _, _, h⟩ | ⟨_, _, _, h⟩ <;> simp [h]

/-- What one visit comes to, at an address already known. -/
theorem visit_of_address {img : Memory} {va : Word} {k : Level} {base a : Word}
    (ha : entryNumber va k base = a.toNat) :
    (img.read a = none ∧ visit img va k base = .absent a) ∨
    (∃ e, img.read a = some e ∧ isPresent e = false ∧ visit img va k base = .notPresent a) ∨
    (∃ e, img.read a = some e ∧ isPresent e = true ∧ visit img va k base = .entry a e) := by
  rcases visit_cases img va k base with ⟨hge, _⟩ | ⟨b, hb, _, _, hv⟩
  · have := a.isLt; omega
  · have : b = a := BitVec.eq_of_toNat_eq (by omega)
    subst this
    exact hv

/-- A read in flight, answered and taken, and the walk after it: the same as the walk from before ISSUE. -/
theorem finishHeld_sent {s : State} {a : Word} (hst : s.st = .issue) (hm : s.memChan = .empty)
    (ha : entryNumber s.vaQ s.lvl s.baseQ = a.toNat) :
    ({ s.sendRead a with st := .wait }).finishHeld = s.finishWalk := by
  have hse : ∀ t : State, t.memChan = .empty → ({ t with memChan := .empty } : State) = t := by
    intro t h; cases t; simp_all
  rcases visit_of_address (img := s.img) ha with ⟨hr, hv⟩ | ⟨e, hr, hp, hv⟩ | ⟨e, hr, hp, hv⟩
  · rw [finishWalk_absent hv]
    cases s; simp_all [State.finishHeld, State.memAnswer, State.sendRead, State.takeStep, State.takeAnswer,
      State.raiseFault, State.noteRead]
  · rw [finishWalk_notPresent hv]
    cases s; simp_all [State.finishHeld, State.memAnswer, State.sendRead, State.takeStep, State.takeAnswer,
      State.raiseFault, State.noteRead]
  · cases hk : nextLevel s.lvl with
    | none =>
      rw [finishWalk_lastEntry hv hk]
      cases s; simp_all [State.finishHeld, State.memAnswer, State.sendRead, State.takeStep, State.takeAnswer,
        State.respondOk, State.noteRead]
    | some k =>
      rw [finishWalk_entry hv hk]
      cases s; simp_all [State.finishHeld, State.memAnswer, State.sendRead, State.takeStep, State.takeAnswer,
        State.descend, State.noteRead]

/-- ISSUE does not change what the held request comes to. -/
theorem finishHeld_issueStep {s : State} (hst : s.st = .issue) (hm : s.memChan = .empty) :
    s.issueStep.finishHeld = s.finishHeld := by
  have hs : s.finishHeld = s.finishWalk := by simp [State.finishHeld, hst]
  rcases issueStep_cases s with ⟨hv, hi⟩ | ⟨a, ha, _, hi⟩
  · rw [hi, hs, finishWalk_overflow hv]
    simp [State.finishHeld]
  · rw [hi, hs, finishHeld_sent hst hm ha]

/-- M-ANSWER does not change what the held request comes to. -/
theorem finishHeld_memAnswer {s : State}
    (h' : s.st ≠ .wait → s.memChan = .empty) : s.memAnswer.finishHeld = s.finishHeld := by
  cases hm : s.memChan with
  | empty => simp [State.memAnswer, hm]
  | answer m => simp [State.memAnswer, hm]
  | request a =>
    have hw : s.st = .wait := by
      by_contra hc
      simp [h' hc] at hm
    have hidem : s.memAnswer.memAnswer = s.memAnswer := by
      cases hr : s.img.read a with
      | none => rw [memAnswer_absent hm hr]; rfl
      | some e => rw [memAnswer_present hm hr]; rfl
    simp [State.finishHeld, hw, hidem]

/-- TAKE does not change what the held request comes to. -/
theorem finishHeld_takeStep {s : State} (hst : s.st = .wait) : s.takeStep.finishHeld = s.finishHeld := by
  cases hm : s.memChan with
  | empty => simp [State.takeStep, hm]
  | request a => simp [State.takeStep, hm]
  | answer m =>
    have hma : s.memAnswer = s := by simp [State.memAnswer, hm]
    simp only [State.finishHeld, hst, hma, State.takeStep, hm]
    simp only [State.takeAnswer]
    repeat' split
    all_goals simp_all

end Sys2Proof.Machine
end

