-- ==== Sys2Proof/Laws/Ops.lean ====
section
/-! SUPPORT. Each shared operation over the channels and the schedule, once: everything it can do. -/

namespace Sys2Proof.Machine

open Sys2Proof.Safety

/-! ### RESPOND -/

theorem rspChan_of_resp {s : State} (h : s.st = .resp) :
    s.rspChan = some { fault := s.resFault, data := s.resData } := by
  simp [State.rspChan, h]

theorem rspChan_of_not_resp {s : State} (h : s.st ≠ .resp) : s.rspChan = none := by
  simp [State.rspChan, h]

theorem respond_of_resp {s : State} (h : s.st = .resp) :
    s.respond = { s with st := .idle, taken := s.taken ++ [{ fault := s.resFault, data := s.resData }] } := by
  simp only [State.respond, rspChan_of_resp h]

theorem respond_of_not_resp {s : State} (h : s.st ≠ .resp) : s.respond = s := by
  simp only [State.respond, rspChan_of_not_resp h]

/-! ### Requests -/

theorem hold_cases (w : ReqWord) (s : State) :
    (s.reqChan = none ∧ s.hold w = { s with reqChan := some w }) ∨
    ((∃ v, s.reqChan = some v) ∧ s.hold w = { s with offers := w :: s.offers }) := by
  cases h : s.reqChan with
  | none => exact Or.inl ⟨rfl, by simp [State.hold, h]⟩
  | some v => exact Or.inr ⟨⟨v, rfl⟩, by simp [State.hold, h]⟩

theorem offer_cases (s : State) :
    (∃ w ws, s.reqChan = none ∧ s.offers = w :: ws ∧ s.offer = { s with reqChan := some w, offers := ws }) ∨
    s.offer = s := by
  unfold State.offer
  split
  · exact Or.inl ⟨_, _, ‹_›, ‹_›, rfl⟩
  · exact Or.inr rfl

theorem acceptStep_cases (s : State) :
    (∃ w, s.reqChan = some w ∧ s.acceptStep = { s with reqChan := none }.acceptInstr (decode w)) ∨
    (s.reqChan = none ∧ s.acceptStep = s) := by
  cases h : s.reqChan with
  | none => exact Or.inr ⟨rfl, by simp [State.acceptStep, h]⟩
  | some w => exact Or.inl ⟨w, rfl, by simp [State.acceptStep, h]⟩

/-! ### TAKE -/

theorem takeAnswer_cases (m : Mrsp) (s : State) :
    ((m.present = false ∨ isPresent m.data = false) ∧ s.takeAnswer m = s.raiseFault) ∨
    (m.present = true ∧ isPresent m.data = true ∧
      ((∃ k, nextLevel s.lvl = some k ∧ s.takeAnswer m = s.descend m.data k) ∨
       (nextLevel s.lvl = none ∧ s.takeAnswer m = s.respondOk (physicalAddress (nextBase m.data) s.vaQ)))) := by
  unfold State.takeAnswer State.descend
  cases hp : m.present with
  | false => exact Or.inl ⟨Or.inl rfl, by simp⟩
  | true =>
    cases hq : isPresent m.data with
    | false => exact Or.inl ⟨Or.inr rfl, by simp⟩
    | true =>
      refine Or.inr ⟨rfl, rfl, ?_⟩
      cases hk : nextLevel s.lvl with
      | none => exact Or.inr ⟨rfl, by simp⟩
      | some k => exact Or.inl ⟨k, rfl, by simp⟩

/-! ### The prompt completion -/

/-- A request that already has its result is finished. -/
theorem finishHeld_of_resp {s : State} (h : s.st = .resp) : s.finishHeld = s := by
  simp [State.finishHeld, h]

theorem finishWalk_st (s : State) : s.finishWalk.st = .resp := by
  simp [State.finishWalk]

/-- The two ways `exec` goes: the request is accepted and run to its response, or it waits (R78, R83, R106). -/
theorem exec_cases (i : Instr) (s : State) :
    (s.st = .idle ∧ exec i s = .next (s.acceptInstr i).runHeld) ∨
    (s.st ≠ .idle ∧ exec i s = .next (s.hold (encode i))) := by
  by_cases h : s.st = .idle
  · refine Or.inl ⟨h, ?_⟩
    cases i with
    | extract va root =>
      simp only [exec, execExtract, if_pos h, State.acceptInstr, State.runHeld,
        finishHeld_of_resp (s := s.acceptExtract va) rfl]
    | translate va root => simp only [exec, execTranslate, if_pos h, State.acceptInstr]
  · refine Or.inr ⟨h, ?_⟩
    cases i <;> simp only [exec, execExtract, execTranslate, if_neg h]

/-! ### Moves and schedules -/

theorem transact_cases (s : State) :
    (∃ w, s.st = .idle ∧ s.reqChan = some w ∧ transact s = exec (decode w) { s with reqChan := none }) ∨
    (s.st = .idle ∧ s.reqChan = none ∧ transact s = .next s.offer) ∨
    (s.st ≠ .idle ∧ transact s = .next s.runHeld) := by
  unfold transact
  by_cases h : s.st = .idle
  · rw [if_pos h]
    cases hr : s.reqChan with
    | none => exact Or.inr (Or.inl ⟨h, rfl, rfl⟩)
    | some w => exact Or.inl ⟨w, h, rfl, rfl⟩
  · rw [if_neg h]
    exact Or.inr (Or.inr ⟨h, rfl⟩)

/-- An edge is a reset, one micro-step, or a wait (R59). -/
theorem clockEdge_cases (p : Pins) (s : State) :
    (p.rst = true ∧ s.clockEdge p = s.resetPtw) ∨
    (p.rst = false ∧
      (s.clockEdge p = s.ptwStep ∨ s.clockEdge p = s ∨ (p.rspReady = true ∧ s.clockEdge p = s.respond))) := by
  cases hr : p.rst with
  | true => exact Or.inl ⟨rfl, by simp [State.clockEdge, hr]⟩
  | false =>
    refine Or.inr ⟨rfl, ?_⟩
    unfold State.clockEdge State.ptwStep
    simp only [hr, Bool.false_eq_true, if_false]
    cases s.st with
    | idle => exact Or.inl rfl
    | issue =>
      dsimp only
      split
      · exact Or.inr (Or.inl rfl)
      · exact Or.inl rfl
    | wait => exact Or.inl rfl
    | resp =>
      dsimp only
      split
      · exact Or.inr (Or.inr ⟨‹_›, rfl⟩)
      · exact Or.inr (Or.inl rfl)

end Sys2Proof.Machine
end

