-- ==== Sys2Proof/Laws/PerInstr.lean ====
section
/-! SUPPORT. What is said of each request as syntax: bit 128 of its word is its operation (R47). -/

namespace Sys2Proof.Laws.EncodedOperation

/-- The decoder's one bit, read from the word of `i`, is the operation of `i`. -/
def Statement (i : Instr) : Prop :=
  decodeOp (encode i) = i.op

theorem extract (va root : Word) : Statement (.extract va root) := by
  unfold Statement decodeOp encode
  rw [opBit_append]
  rfl

theorem translate (va root : Word) : Statement (.translate va root) := by
  unfold Statement decodeOp encode
  rw [opBit_append]
  rfl

end Sys2Proof.Laws.EncodedOperation
end

