-- ==== Sys2Proof/Laws/Schedule.lean ====
section
/-! SUPPORT. A schedule move by move: no operation looks at the agenda, and none changes it. -/

namespace Sys2Proof.Machine

open Sys2Proof.Safety

theorem acceptInstr_agenda (i : Instr) (s : State) : (s.acceptInstr i).agenda = s.agenda := by
  cases i <;> rfl

theorem acceptStep_agenda (s : State) : s.acceptStep.agenda = s.agenda := by
  rcases acceptStep_cases s with ⟨w, _, h⟩ | ⟨_, h⟩ <;> rw [h]
  rw [acceptInstr_agenda]

theorem issueStep_agenda (s : State) : s.issueStep.agenda = s.agenda := by
  rcases issueStep_cases s with ⟨_, h⟩ | ⟨a, _, _, h⟩ <;> rw [h] <;> rfl

theorem takeAnswer_agenda (m : Mrsp) (s : State) : (s.takeAnswer m).agenda = s.agenda := by
  rcases takeAnswer_cases m s with ⟨_, h⟩ | ⟨_, _, ⟨k, _, h⟩ | ⟨_, h⟩⟩ <;> rw [h] <;> rfl

theorem takeStep_agenda (s : State) : s.takeStep.agenda = s.agenda := by
  unfold State.takeStep
  split
  · rw [takeAnswer_agenda]
  · rfl

theorem ptwStep_agenda (s : State) : s.ptwStep.agenda = s.agenda := by
  unfold State.ptwStep
  split
  · exact acceptStep_agenda s
  · exact issueStep_agenda s
  · exact takeStep_agenda s
  · rfl

theorem finishWalk_agenda (s : State) : s.finishWalk.agenda = s.agenda := by
  simp [State.finishWalk]

theorem finishHeld_agenda (s : State) : s.finishHeld.agenda = s.agenda := by
  unfold State.finishHeld
  split
  · exact finishWalk_agenda s
  · dsimp only
    split
    · rw [finishWalk_agenda, takeStep_agenda, State.memAnswer_agenda]
    · rw [takeStep_agenda, State.memAnswer_agenda]
  · rfl

theorem runHeld_agenda (s : State) : s.runHeld.agenda = s.agenda := by
  rw [State.runHeld, State.respond_agenda, finishHeld_agenda]

theorem exec_agenda {i : Instr} {s t : State} (h : exec i s = .next t) : t.agenda = s.agenda := by
  rcases exec_cases i s with ⟨_, he⟩ | ⟨_, he⟩ <;> rw [he] at h <;> obtain rfl := Host.Outcome.next.inj h
  · rw [runHeld_agenda, acceptInstr_agenda]
  · rw [State.hold_agenda]

theorem clockEdge_agenda (p : Pins) (s : State) : (s.clockEdge p).agenda = s.agenda := by
  rcases clockEdge_cases p s with ⟨_, h⟩ | ⟨_, h | h | ⟨_, h⟩⟩ <;> rw [h]
  · rfl
  · exact ptwStep_agenda s
  · exact State.respond_agenda s

/-- No move changes the agenda. -/
theorem runMove_agenda {m : Move} {s t : State} (h : runMove m s = .next t) : t.agenda = s.agenda := by
  cases m with
  | transact =>
    have h' : transact s = .next t := h
    rcases transact_cases s with ⟨w, _, _, he⟩ | ⟨_, _, he⟩ | ⟨_, he⟩ <;> rw [he] at h'
    · have ha := exec_agenda h'
      exact ha
    · obtain rfl := Host.Outcome.next.inj h'
      exact State.offer_agenda s
    · obtain rfl := Host.Outcome.next.inj h'
      exact runHeld_agenda s
  | offer => obtain rfl := Host.Outcome.next.inj h; exact State.offer_agenda s
  | ptw => obtain rfl := Host.Outcome.next.inj h; exact ptwStep_agenda s
  | memAnswer => obtain rfl := Host.Outcome.next.inj h; exact State.memAnswer_agenda s
  | take => obtain rfl := Host.Outcome.next.inj h; exact State.respond_agenda s
  | reset => obtain rfl := Host.Outcome.next.inj h; rfl
  | edge p => obtain rfl := Host.Outcome.next.inj h; exact clockEdge_agenda p s

/-! ### Moves as a function -/

theorem exec_next (i : Instr) (s : State) : ∃ t, exec i s = .next t := by
  rcases exec_cases i s with ⟨_, h⟩ | ⟨_, h⟩ <;> exact ⟨_, h⟩

theorem runMove_next (m : Move) (s : State) : ∃ t, runMove m s = .next t := by
  cases m with
  | transact =>
    rcases transact_cases s with ⟨w, _, _, h⟩ | ⟨_, _, h⟩ | ⟨_, h⟩
    · obtain ⟨t, ht⟩ := exec_next (decode w) { s with reqChan := none }
      exact ⟨t, h.trans ht⟩
    · exact ⟨_, h⟩
    · exact ⟨_, h⟩
  | offer => exact ⟨_, rfl⟩
  | ptw => exact ⟨_, rfl⟩
  | memAnswer => exact ⟨_, rfl⟩
  | take => exact ⟨_, rfl⟩
  | reset => exact ⟨_, rfl⟩
  | edge p => exact ⟨_, rfl⟩

/-- The state after a move, which always has one. -/
def State.afterMove (m : Move) (s : State) : State :=
  match runMove m s with
  | .next t => t
  | _ => s

theorem runMove_eq (m : Move) (s : State) : runMove m s = .next (s.afterMove m) := by
  obtain ⟨t, h⟩ := runMove_next m s
  simp only [State.afterMove, h]

theorem afterMove_of {m : Move} {s t : State} (h : runMove m s = .next t) : s.afterMove m = t := by
  simp only [State.afterMove, h]

theorem afterMove_agenda (m : Move) (s : State) : (s.afterMove m).agenda = s.agenda :=
  runMove_agenda (runMove_eq m s)

/-! ### The end of a schedule, and its first move -/

/-- The end of a schedule. -/
theorem follow_nil (s : State) : follow [] s = .next { s with agenda := [] } :=
  rfl

/-- A schedule's first move, made with the rest on the agenda. -/
theorem follow_cons {m : Move} {ms : List Move} {s t : State} (h : runMove m { s with agenda := ms } = .next t) :
    follow (m :: ms) s = follow ms t := by
  have hs : Sys2Proof.core.step { s with agenda := m :: ms } = .next t := h
  have ha : t.agenda = ms := runMove_agenda h
  have ht : ({ t with agenda := ms } : State) = t := by rw [← ha]
  simp only [follow, List.length_cons, Host.Core.run, hs]
  rw [ht]

end Sys2Proof.Machine
end

