-- ==== Sys2Proof/Laws/Plan.lean ====
section
/-! SUPPORT. Agenda and cycle only say which move is next: a move's effect on the rest of the state does not depend on
them, so a schedule is the fold of its moves. -/

namespace Sys2Proof.Machine

open Sys2Proof.Safety

/-- The same state with other moves ahead. -/
def State.plan (a c : List Move) (s : State) : State :=
  { s with agenda := a, cycle := c }

theorem plan_self (s : State) : s.plan s.agenda s.cycle = s := rfl

theorem plan_plan (a c a' c' : List Move) (s : State) : (s.plan a c).plan a' c' = s.plan a' c' := rfl

/-! ### Each operation -/

theorem plan_respond (a c : List Move) (s : State) : (s.plan a c).respond = s.respond.plan a c := by
  by_cases h : s.st = .resp
  · rw [respond_of_resp h, respond_of_resp (s := s.plan a c) h]; rfl
  · rw [respond_of_not_resp h, respond_of_not_resp (s := s.plan a c) h]

theorem plan_offer (a c : List Move) (s : State) : (s.plan a c).offer = s.offer.plan a c := by
  unfold State.offer State.plan
  dsimp only
  split <;> rfl

theorem plan_acceptInstr (a c : List Move) (i : Instr) (s : State) :
    (s.plan a c).acceptInstr i = (s.acceptInstr i).plan a c := by
  cases i <;> rfl

theorem plan_acceptStep (a c : List Move) (s : State) : (s.plan a c).acceptStep = s.acceptStep.plan a c := by
  rcases acceptStep_cases s with ⟨w, hw, h⟩ | ⟨hw, h⟩ <;> rw [h]
  · rw [← plan_acceptInstr]
    have hp : (s.plan a c).reqChan = some w := hw
    simp only [State.acceptStep, hp]
    rfl
  · have hp : (s.plan a c).reqChan = none := hw
    simp only [State.acceptStep, hp]

theorem plan_issueStep (a c : List Move) (s : State) : (s.plan a c).issueStep = s.issueStep.plan a c := by
  unfold State.issueStep State.plan
  dsimp only
  split <;> rfl

theorem plan_memAnswer (a c : List Move) (s : State) : (s.plan a c).memAnswer = s.memAnswer.plan a c := by
  cases hm : s.memChan with
  | request b =>
    cases hr : s.img.read b with
    | none => rw [memAnswer_absent hm hr, memAnswer_absent (s := s.plan a c) hm hr]; rfl
    | some e => rw [memAnswer_present hm hr, memAnswer_present (s := s.plan a c) hm hr]; rfl
  | _ => rw [memAnswer_nothing (s := s) (by simp [hm]), memAnswer_nothing (by simp [State.plan, hm])]

theorem plan_takeAnswer (a c : List Move) (m : Mrsp) (s : State) :
    (s.plan a c).takeAnswer m = (s.takeAnswer m).plan a c := by
  have hl : (s.plan a c).lvl = s.lvl := rfl
  simp only [State.takeAnswer, hl]
  repeat' split
  all_goals rfl

theorem plan_takeStep (a c : List Move) (s : State) : (s.plan a c).takeStep = s.takeStep.plan a c := by
  have hm : (s.plan a c).memChan = s.memChan := rfl
  simp only [State.takeStep, hm]
  split
  · exact plan_takeAnswer a c _ { s with memChan := .empty }
  · rfl

theorem plan_ptwStep (a c : List Move) (s : State) : (s.plan a c).ptwStep = s.ptwStep.plan a c := by
  have hs : (s.plan a c).st = s.st := rfl
  simp only [State.ptwStep, hs]
  split
  · exact plan_acceptStep a c s
  · exact plan_issueStep a c s
  · exact plan_takeStep a c s
  · rfl

theorem plan_setResult (a c : List Move) (r : Result) (s : State) :
    (s.plan a c).setResult r = (s.setResult r).plan a c := by
  cases r <;> rfl

theorem plan_finishWalk (a c : List Move) (s : State) : (s.plan a c).finishWalk = s.finishWalk.plan a c := by
  simp only [State.finishWalk]
  rw [← plan_setResult]
  rfl

theorem plan_finishHeld (a c : List Move) (s : State) : (s.plan a c).finishHeld = s.finishHeld.plan a c := by
  have hs : (s.plan a c).st = s.st := rfl
  simp only [State.finishHeld, hs]
  split
  · exact plan_finishWalk a c s
  · have ht : (s.memAnswer.takeStep.plan a c).st = s.memAnswer.takeStep.st := rfl
    rw [plan_memAnswer, plan_takeStep, ht]
    split
    · exact plan_finishWalk a c _
    · rfl
  · rfl

theorem plan_runHeld (a c : List Move) (s : State) : (s.plan a c).runHeld = s.runHeld.plan a c := by
  simp only [State.runHeld, plan_finishHeld, plan_respond]

theorem plan_clockEdge (a c : List Move) (p : Pins) (s : State) :
    (s.plan a c).clockEdge p = (s.clockEdge p).plan a c := by
  have hs : (s.plan a c).st = s.st := rfl
  have hm : (s.plan a c).memReqValid = s.memReqValid := rfl
  simp only [State.clockEdge, hs, hm]
  split
  · rfl
  · split
    · exact plan_acceptStep a c s
    · split
      · rfl
      · exact plan_issueStep a c s
    · exact plan_takeStep a c s
    · split
      · exact plan_respond a c s
      · rfl

/-! ### Each move, and a whole schedule -/

/-- A prompt step from an idle PTW with a request: the request, accepted and run to its response. -/
theorem afterMove_transact_request {s : State} {w : ReqWord} (h : s.st = .idle) (hw : s.reqChan = some w) :
    s.afterMove .transact = (({ s with reqChan := none } : State).acceptInstr (decode w)).runHeld := by
  apply afterMove_of
  show transact s = _
  rcases exec_cases (decode w) { s with reqChan := none } with ⟨_, he⟩ | ⟨hn, _⟩
  · rw [← he]
    unfold transact
    rw [if_pos h, hw]
  · exact absurd h hn

theorem afterMove_transact_quiet {s : State} (h : s.st = .idle) (hw : s.reqChan = none) :
    s.afterMove .transact = s.offer := by
  apply afterMove_of
  show transact s = _
  unfold transact
  rw [if_pos h, hw]

theorem afterMove_transact_held {s : State} (h : s.st ≠ .idle) : s.afterMove .transact = s.runHeld := by
  apply afterMove_of
  show transact s = _
  unfold transact
  rw [if_neg h]

/-- What a move does to the rest of the state does not depend on the moves that follow. -/
theorem plan_afterMove (a c : List Move) (m : Move) (s : State) :
    (s.plan a c).afterMove m = (s.afterMove m).plan a c := by
  cases m with
  | transact =>
    by_cases h : s.st = .idle
    · rcases Option.eq_none_or_eq_some s.reqChan with hw | ⟨w, hw⟩
      · rw [afterMove_transact_quiet h hw, afterMove_transact_quiet (s := s.plan a c) h hw, plan_offer]
      · rw [afterMove_transact_request h hw, afterMove_transact_request (s := s.plan a c) h hw, ← plan_runHeld,
          ← plan_acceptInstr]
        rfl
    · rw [afterMove_transact_held h, afterMove_transact_held (s := s.plan a c) h, plan_runHeld]
  | offer => exact plan_offer a c s
  | ptw => exact plan_ptwStep a c s
  | memAnswer => exact plan_memAnswer a c s
  | take => exact plan_respond a c s
  | reset => rfl
  | edge p => exact plan_clockEdge a c p s

/-- The state after a list of moves. -/
def State.afterMoves (ms : List Move) (s : State) : State :=
  ms.foldl (fun t m => t.afterMove m) s

theorem plan_afterMoves (a c : List Move) (ms : List Move) (s : State) :
    (s.plan a c).afterMoves ms = (s.afterMoves ms).plan a c := by
  induction ms generalizing s with
  | nil => rfl
  | cons m ms ih =>
    show ((s.plan a c).afterMove m).afterMoves ms = ((s.afterMove m).afterMoves ms).plan a c
    rw [plan_afterMove, ih]

/-- The cycle is a constant of a run. -/
theorem afterMove_cycle (m : Move) (s : State) : (s.afterMove m).cycle = s.cycle := by
  have h := plan_afterMove s.agenda s.cycle m s
  rw [plan_self] at h
  rw [h]
  rfl

/-- A run along a schedule: the fold of its moves, and an empty agenda. -/
theorem follow_eq (ms : List Move) (s : State) : follow ms s = .next ((s.afterMoves ms).plan [] s.cycle) := by
  induction ms generalizing s with
  | nil => rfl
  | cons m ms ih =>
    have hp : ({ s with agenda := ms } : State).afterMove m = (s.afterMove m).plan ms s.cycle :=
      plan_afterMove ms s.cycle m s
    rw [follow_cons (runMove_eq m { s with agenda := ms }), ih, hp, plan_afterMoves]
    rfl

end Sys2Proof.Machine
end

