-- ==== Sys2Proof/Tests/Slice0.lean ====
section
/-! SUPPORT. Tests. Every expected value is written in spec/ (the place stands in the comment) or worked out by hand
from the rule cited; the theorems named witness_… show that the hypotheses of a statement can be met. -/

namespace Sys2Proof.Tests

open Sys2Proof.Machine Sys2Proof.Safety

/-! ### Images and states -/

/-- IMG0 of spec/95_test_vectors.md, the source's. -/
def img0 : Memory := [(0x0, 0x1001), (0x1000, 0x2001), (0x2000, 0x3001), (0x3000, 0x4001)]

/-- IMG5 of spec/95_test_vectors.md. -/
def img5 : Memory := [(0x10008, 0x20001), (0x20010, 0x30001), (0x30018, 0x40001), (0x40020, 0xABCDE001)]

/-- IMG9 of spec/95_test_vectors.md. -/
def img9 : Memory :=
  [(0x10008, 0xFFF0000000020FFF), (0x20010, 0x8000000000030081), (0x30018, 0x00100000000400E7),
    (0x40020, 0xFFFFFFFFFFFFFFFF)]

/-- IMG13 of spec/95_test_vectors.md. -/
def img13 : Memory := [(0xFF8, 0xFFFFFFFFFFFFFFFF), (0xFFFFFFFFFFFF8, 0xFFFFFFFFFFFFFFFF)]

/-- IMG14 of spec/95_test_vectors.md. -/
def img14 : Memory := [(0x100B, 0x2001), (0x2000, 0x3001), (0x3000, 0x4001), (0x4000, 0x5001)]

/-- IMG16 of spec/95_test_vectors.md. -/
def img16 : Memory := [(0x0, 0x1001), (0x1000, 0x2001), (0x2000, 0x200081), (0x200000, 0x7001)]

/-- IMG0 without key 0x1000 (T2). -/
def img0Hole : Memory := [(0x0, 0x1001), (0x2000, 0x3001), (0x3000, 0x4001)]

/-- VA5 of spec/95_test_vectors.md. -/
def va5 : Word := 0x8080604567

/-- The request word of T1: TRANSLATE 0, 0. -/
def wordT1 : ReqWord := 0x100000000000000000000000000000000

/-- The machine after reset, over an image. -/
def loaded (img : Memory) : State := State.reset.withImage img

/-- An idle machine with a request on its channel. -/
def asked (img : Memory) (w : ReqWord) : State := { loaded img with reqChan := some w }

/-- A machine in WAIT at level `k`, the channel as given. -/
def waiting (img : Memory) (k : Level) (c : MemChan) : State :=
  { loaded img with st := .wait, opQ := .translate, lvl := k, memChan := c }

/-- A machine that offers the response Ok(0x4000), with the next request on the channel. -/
def answered : State := { loaded img0 with st := .resp, resData := 0x4000, reqChan := some wordT1 }

/-- That machine with these moves to make. -/
def planned (ms : List Move) (s : State) : State := { s with agenda := ms }

/-- That machine with these moves to make over and over. -/
def cycling (ms : List Move) (s : State) : State := { s with cycle := ms }

/-- The outcome is a next state, and this holds of it. -/
def nextIs (o : Host.Outcome State Fault Refusal) (p : State → Bool) : Bool :=
  match o with
  | .next t => p t
  | _ => false

/-! ### Decoding: words written out bit by bit from R46 -/

/-- E16: bit 128 clear. -/
theorem test_decode_extract :
    decode (0b0#1 ++ 0xDEADBEEF00000000#64 ++ 0x0000123456789ABC#64) =
      .extract 0x123456789ABC#64 0xDEADBEEF00000000#64 := by decide

/-- T15: bit 128 set. -/
theorem test_decode_translate :
    decode (0b1#1 ++ 0xFFFFFFFFFFFFF008#64 ++ 0x0000FF8000000000#64) =
      .translate 0xFF8000000000#64 0xFFFFFFFFFFFFF008#64 := by decide

/-- T5's word as the opcode table numbers it, in 129 bits and in 17 whole bytes. -/
theorem test_table_word :
    decodeTableWord 129 0x100000000000100000000008080604567 = some (.translate va5 0x10000#64) ∧
      decodeTableWord 136 0x100000000000100000000008080604567 = some (.translate va5 0x10000#64) := by decide

/-- The first number that has no 129-bit word is rejected, by name. -/
theorem test_table_word_too_wide :
    decodeTableWord 136 (2 ^ 129) = none ∧
      (match decodeNumber (2 ^ 129) with
        | .error .tooWide => true
        | _ => false) = true := by decide

/-- The words of the responses of T9 and of a Fault (R54, R55). -/
theorem test_response_words :
    (Result.ok 0xFFFFFFFFFF567#64).toRsp.toWord = 0x0000FFFFFFFFFF567#65 ∧
      Result.fault.toRsp.toWord = 0x10000000000000000#65 := by decide

/-! ### The checks, each with an ill-formed term it refuses -/

/-- R55: a Fault with a payload is no response of the PTW. -/
theorem test_wellFormed_refuses_fault_payload : Rsp.wellFormed { fault := true, data := 1 } = false := by decide

/-- R46: 2^129 needs a 130th bit, 2^129 - 1 does not. -/
theorem test_isRequestNumber_refuses :
    isRequestNumber (2 ^ 129) = false ∧ isRequestNumber (2 ^ 129 - 1) = true := by decide

/-- R25: keys out of order, a key twice, a key of 65 bits. -/
theorem test_image_form_refuses :
    Memory.wf [(8, 1), (0, 1)] = false ∧ Memory.wf [(8, 1), (8, 1)] = false ∧
      Memory.wf [(2 ^ 64, 1)] = false ∧ Memory.wf [(2 ^ 64 - 1, 1)] = true := by decide

/-! ### The two operations, on the vectors of spec/95_test_vectors.md -/

/-- E1 to E19: the address and the packed data. -/
theorem test_extract_vectors :
    ([(0x0, 0x0), (0x8000000000, 0x8000000), (0x40000000, 0x40000), (0x200000, 0x200), (0x1000, 0x1), (0x800, 0x0),
      (0xFFF, 0x0), (0x1000000000000, 0x0), (0xFFFF000000000000, 0x0), (0xFFFFFFFFFFFFFFFF, 0xFFFFFFFFF),
      (0xFF8000000000, 0xFF8000000), (0x7FC0000000, 0x7FC0000), (0x3FE00000, 0x3FE00), (0x1FF000, 0x1FF),
      (0x8040201000, 0x8040201), (0x123456789ABC, 0x123456789), (0x7FFFFFFFFFFF, 0x7FFFFFFFF),
      (0xFFFF800000000000, 0x800000000), (0x8080604567, 0x8080604)] : List (Word × Word)).all
        (fun v => packIndices (extractIndices v.1) = v.2) = true := by decide

/-- T1 to T5, T9 to T16b where they need no image of their own: the result and the reads. -/
theorem test_translate_vectors :
    ([(0x0, 0x0, img0, .ok 0x4000, [0x0, 0x1000, 0x2000, 0x3000]),
      (0x0, 0x0, img0Hole, .fault, [0x0, 0x1000]),
      (0xFFFF000000000FFF, 0x0, img0, .ok 0x4FFF, [0x0, 0x1000, 0x2000, 0x3000]),
      (va5, 0x10000, img5, .ok 0xABCDE567, [0x10008, 0x20010, 0x30018, 0x40020]),
      (va5, 0x10000, img9, .ok 0xFFFFFFFFFF567, [0x10008, 0x20010, 0x30018, 0x40020]),
      (0x123, 0x5000, [(0x0, 0x1), (0x5000, 0x1)], .ok 0x123, [0x5000, 0x0, 0x0, 0x0]),
      (0x0, 0x0, [], .fault, [0x0]),
      (0xFFFFFFFFFFFF, 0x0, img13, .ok 0xFFFFFFFFFFFFF,
        [0xFF8, 0xFFFFFFFFFFFF8, 0xFFFFFFFFFFFF8, 0xFFFFFFFFFFFF8]),
      (0x8000000000, 0x1003, img14, .ok 0x5000, [0x100B, 0x2000, 0x3000, 0x4000]),
      (0x8000000000, 0x1000, img14, .fault, [0x1008]),
      (0xFF8000000000, 0xFFFFFFFFFFFFF008, img0, .fault, []),
      (0xFF0000000000, 0xFFFFFFFFFFFFF008, [(0xFFFFFFFFFFFFFFF8, 0x1001)], .fault, [0xFFFFFFFFFFFFFFF8, 0x1000]),
      (0x8000000000, 0xFFFFFFFFFFFFFFFF, [(0x7, 0x1001)], .fault, []),
      (0x234, 0x0, img16, .ok 0x7234, [0x0, 0x1000, 0x2000, 0x200000])] :
        List (Word × Word × Memory × Result × List Word)).all
        (fun v => translateVa v.1 v.2.1 v.2.2.1 = v.2.2.2.1 ∧ reads v.1 v.2.1 v.2.2.1 = v.2.2.2.2) = true := by decide

/-- T6.1 to T6.4: bit 0 clear at each level ends the walk there (the causes and levels of the table). -/
theorem test_not_present_at_each_level :
    (fullWalk va5 0x10000 [(0x10008, 0x20000)]).cause = some .notPresent ∧
    (fullWalk va5 0x10000 [(0x10008, 0x20001), (0x20010, 0x30000)]).lvl = .pdpt ∧
    (fullWalk va5 0x10000 [(0x10008, 0x20001), (0x20010, 0x30001), (0x30018, 0x40000)]).lvl = .pd ∧
    (fullWalk va5 0x10000
      [(0x10008, 0x20001), (0x20010, 0x30001), (0x30018, 0x40001), (0x40020, 0xABCDE000)]).lvl = .pt := by decide

/-! ### One step -/

/-- E2 as the first instruction after reset: the response, no read. -/
theorem test_step_extract :
    nextIs (step (State.reset.withFetchWord 129 0x8000000000)) (fun t =>
      t.taken = [{ fault := false, data := 0x8000000 }] ∧ t.st = .idle ∧ t.readLog = []) = true := by decide

/-- T5 placed over its image: the response and the reads. -/
theorem test_step_translate :
    nextIs (step ((loaded img5).withFetchWord 129 0x100000000000100000000008080604567)) (fun t =>
      t.taken = [{ fault := false, data := 0xABCDE567 }] ∧ t.readLog = [0x10008, 0x20010, 0x30018, 0x40020]) =
        true := by decide

/-- T12 as the first instruction after reset: the empty image is absent, not zero. -/
theorem test_step_translate_empty_image :
    nextIs (step (State.reset.withFetchWord 129 0x100000000000000000000000000000000)) (fun t =>
      t.taken = [{ fault := true, data := 0 }] ∧ t.st = .idle ∧ t.readLog = [0]) = true := by decide

/-- M1, line 4: TAKE of 0x1001 at level 1 goes on at level 2 with base 0x1000. -/
theorem test_take_goes_down :
    nextIs (step (planned [.ptw] (waiting img0 .pml4 (.answer { present := true, data := 0x1001 }))))
      (fun t => t.st = .issue ∧ t.lvl = .pdpt ∧ t.baseQ = 0x1000 ∧ t.memChan = .empty) = true := by decide

/-- R104: the loader's pairs in any order make the same image, in canonical form. -/
theorem test_loader :
    Memory.ofPairs [(0x2000, 0x3001), (0x0, 0x1001), (0x3000, 0x4001), (0x1000, 0x2001)] = img0 ∧
      img0.wf = true := by decide

/-! ### Witnesses: encodings and operands -/

/-- OpBitSelectsOperation: the largest word of the first clause, the least of the second. -/
theorem witness_OpBitSelectsOperation :
    0x0FFFFFFFFFFFFFFFFFFFFFFFFFFFFFFFF#129 &&& 0x100000000000000000000000000000000#129 = 0#129 ∧
      wordT1 &&& 0x100000000000000000000000000000000#129 = 0x100000000000000000000000000000000#129 := by decide

theorem witness_EncodeThenDecode : (Instr.translate va5 0xFFFFFFFFFFFFFFFF).wellFormed = true := by decide

/-- TableWordsDecode: the last request word, and the first number that is none. -/
theorem witness_TableWordsDecode :
    2 ^ 129 - 1 < 2 ^ 129 ∧ 2 ^ 129 < 2 ^ 136 ∧ ¬ 2 ^ 129 < 2 ^ 129 := by decide

/-- MessageWordsCarryTheirFields, last clause: a word with `fault` = 1 and a payload. -/
theorem witness_MessageWordsCarryTheirFields : (0x1FFFFFFFFFFFFFFFF#65).getLsbD 64 = true := by decide

/-- IndicesAreTheirSlices, last clause, and UpperAddressBitsIgnored: addresses that differ outside the bits named. -/
theorem witness_IndicesAreTheirSlices :
    (0x8080604567#64).extractLsb' 12 36 = (0xFFFF008080604000#64).extractLsb' 12 36 ∧
      (0x8080604567#64).extractLsb' 0 48 = (0xFFFF008080604567#64).extractLsb' 0 48 := by decide

/-- EntryAddressIsExact: the last sum without a carry and the first with one (T15b, T15). -/
theorem witness_EntryAddressIsExact :
    carryOut (entrySum 0xFFFFFFFFFFFFF008 510) = false ∧ carryOut (entrySum 0xFFFFFFFFFFFFF008 511) = true := by decide

/-! ### Witnesses: the two operations -/

/-- ExtractCompletes and TranslateCompletes. -/
theorem witness_exec_idle : (loaded img0).st = .idle := by decide

/-- NothingCarriesOver: a machine after reset and one that has answered. -/
theorem witness_NothingCarriesOver :
    (loaded img0).st = .idle ∧ answered.respond.st = .idle ∧ (loaded img0).img = answered.respond.img := by decide

/-- BusyRequestWaitsOnChannel: the channel empty, and taken. -/
theorem witness_BusyRequestWaitsOnChannel :
    (waiting img0 .pml4 (.request 0)).st ≠ .idle ∧ (waiting img0 .pml4 (.request 0)).reqChan = none ∧
      answered.st ≠ .idle ∧ answered.reqChan ≠ none := by decide

/-- WalkUsesTheExtractor, second clause: ISSUE sends the last address before 2^64 (T15b); third clause: T5's reads. -/
theorem witness_WalkUsesTheExtractor :
    (∃ t, step { loaded img0 with
        st := .issue, vaQ := 0xFF0000000000, baseQ := 0xFFFFFFFFFFFFF008, agenda := [.ptw] } = .next t ∧
      t.st = .wait ∧ t.memChan = .request 0xFFFFFFFFFFFFFFF8) ∧
    (reads va5 0x10000 img5)[3]? = some 0x40020 :=
  ⟨⟨_, rfl, by decide, by decide⟩, by decide⟩

/-- NothingCarriesOver, last clause. -/
theorem witness_NothingCarriesOver_translate : (Instr.translate va5 0x10000).op = .translate := by decide

/-- The walk of T1 reaches level 2 with base 0x1000, over its image and over the one with the hole. -/
theorem reaches_pdpt {img : Memory} (h : img.entryAt 0 = some 0x1001) : Reaches 0 0 img .pdpt 0x1000 :=
  .down (e := 0x1001) .start (by decide) h (by decide) rfl

/-- The walk of T1 reaches level 4 with base 0x3000. -/
theorem reaches_pt : Reaches 0 0 img0 .pt 0x3000 :=
  .down (k := .pd) (base := 0x2000) (e := 0x3001)
    (.down (k := .pdpt) (base := 0x1000) (e := 0x2001) (reaches_pdpt rfl) (by decide) rfl (by decide) rfl)
    (by decide) rfl (by decide) rfl

/-- TranslateOkIff and ResultBounds: T1. -/
theorem witness_TranslateOkIff : translateVa 0 0 img0 = .ok 0x4000 := by decide

/-- TranslateFaultIffCause, last clause, and RootOverflowReadsNothing: T15 overflows by 0. -/
theorem witness_RootOverflow :
    Reaches 0xFF8000000000 0xFFFFFFFFFFFFF008 img0 .pml4 0xFFFFFFFFFFFFF008 ∧
      causeHolds 0xFF8000000000 img0 .pml4 0xFFFFFFFFFFFFF008 .overflow :=
  ⟨.start, by unfold causeHolds; decide⟩

theorem witness_RootOverflowReadsNothing :
    2 ^ 64 ≤ (0xFFFFFFFFFFFFF008#64).toNat + (index 0xFF8000000000 .pml4).toNat * 8 := by decide

/-- FirstCauseEndsTheWalk, ReadCounts: an absent entry below the first level (T2). -/
theorem witness_absent : Reaches 0 0 img0Hole .pdpt 0x1000 ∧ causeHolds 0 img0Hole .pdpt 0x1000 .absent :=
  ⟨reaches_pdpt rfl, by unfold causeHolds; decide⟩

/-- FirstCauseEndsTheWalk, ReadCounts: an entry that is not present (T6.1). -/
theorem witness_notPresent :
    Reaches va5 0x10000 [(0x10008, 0x20000)] .pml4 0x10000 ∧
      causeHolds va5 [(0x10008, 0x20000)] .pml4 0x10000 .notPresent :=
  ⟨.start, by decide, 0x20000, rfl, by decide⟩

/-- FaultResponsesAreOneWord, last clause: T2. -/
theorem witness_FaultResponsesAreOneWord : translateVa 0 0 img0Hole = .fault := by decide

/-- IgnoredEntryBits: T5's image and T9's differ in ignored bits at every level but the last. -/
theorem witness_IgnoredEntryBits :
    sameUpToIgnoredBits [(0x10008, 0x20001), (0x20010, 0x30001)]
      [(0x10008, 0xFFF0000000020FFF), (0x20010, 0x8000000000030081)] := by
  refine ⟨rfl, by decide, rfl, by decide, trivial⟩

/-- OnlyReadAddressesMatter: another image that answers T1's reads alike. -/
theorem witness_OnlyReadAddressesMatter :
    (∀ a ∈ reads 0 0 img0, Memory.read (img0 ++ [(0x9000, 5)]) a = img0.read a) ∧ img0 ++ [(0x9000, 5)] ≠ img0 := by
  have h : reads 0 0 img0 = [0x0, 0x1000, 0x2000, 0x3000] := by decide
  refine ⟨?_, by decide⟩
  rw [h]
  intro a ha
  simp only [List.mem_cons, List.not_mem_nil, or_false] at ha
  rcases ha with rfl | rfl | rfl | rfl <;> rfl

/-! ### Witnesses: one step -/

theorem witness_StepRunsDecodedRequest :
    (asked img0 wordT1).nextMove = .transact ∧ (asked img0 wordT1).st = .idle ∧
      (asked img0 wordT1).reqChan = some wordT1 := by decide

theorem witness_PlacedWordRuns : 2 ^ 129 - 1 < 2 ^ 129 := by decide

/-- The greatest EXTRACT word. -/
def lastExtract : ReqWord := 0x0FFFFFFFFFFFFFFFFFFFFFFFFFFFFFFFF

/-- AcceptStepEffect: a word of each clause, the greatest EXTRACT and the least TRANSLATE. -/
theorem witness_AcceptStepEffect :
    ((planned [.ptw] (asked img0 lastExtract)).nextMove = .ptw ∧ (asked img0 lastExtract).st = .idle ∧
      (asked img0 lastExtract).reqChan = some lastExtract ∧
      decode lastExtract = .extract 0xFFFFFFFFFFFFFFFF 0xFFFFFFFFFFFFFFFF) ∧
    ((planned [.ptw] (asked img0 wordT1)).nextMove = .ptw ∧ (asked img0 wordT1).st = .idle ∧
      (asked img0 wordT1).reqChan = some wordT1 ∧ decode wordT1 = .translate 0 0) := by decide

/-- A machine in ISSUE at level 1, its PTW to move. -/
def issuing (va root : Word) : State :=
  { loaded img0 with st := .issue, opQ := .translate, vaQ := va, baseQ := root, agenda := [.ptw] }

/-- What IssueStepEffect asks of a state, and its exact entry address. -/
def issues (s : State) (n : Nat) : Bool :=
  s.nextMove = .ptw ∧ s.st = .issue ∧ entryNumber s.vaQ s.lvl s.baseQ = n

/-- IssueStepEffect: the first number that overflows and the last that does not. -/
theorem witness_IssueStepEffect :
    issues (issuing 0xFF8000000000 0xFFFFFFFFFFFFF008) (2 ^ 64) = true ∧
      issues (issuing 0xFF0000000000 0xFFFFFFFFFFFFF00F) (0xFFFFFFFFFFFFFFFF#64).toNat = true := by decide

/-- A machine in WAIT at level `k` with this answer, its PTW to move. -/
def taking (k : Level) (m : Mrsp) : State := planned [.ptw] (waiting img0 k (.answer m))

/-- What every clause of TakeStepEffect asks of the state. -/
theorem taking_meets (k : Level) (m : Mrsp) :
    (taking k m).nextMove = .ptw ∧ (taking k m).st = .wait ∧ (taking k m).memChan = .answer m ∧ (taking k m).lvl = k :=
  ⟨rfl, rfl, rfl, rfl⟩

/-- TakeStepEffect, with `taking_meets`: an absent answer that looks present, an entry with every bit but bit 0, the
last level with a table, level 4, and no answer yet. -/
theorem witness_TakeStepEffect :
    ({ present := false, data := 1 } : Mrsp).present = false ∧
      ({ present := true, data := 0xFFFFFFFFFFFFFFFE } : Mrsp).data.getLsbD 0 = false ∧
      ({ present := true, data := 1 } : Mrsp).data.getLsbD 0 = true ∧
      levelNumber .pt = levelNumber (taking .pd { present := true, data := 1 }).lvl + 1 ∧
      levelNumber (taking .pt { present := true, data := 1 }).lvl = 4 ∧
      (planned [.ptw] (waiting img0 .pml4 (.request 0))).nextMove = .ptw ∧
      (planned [.ptw] (waiting img0 .pml4 (.request 0))).st = .wait := by decide

/-- RespondStepEffect: the requester takes the response, or does not. -/
theorem witness_RespondStepEffect :
    answered.st = .resp ∧ (planned [.take] answered).nextMove = .take ∧
      (planned [.ptw] answered).nextMove = .ptw := by decide

/-- MemoryAgentAnswers: a key of the image, and an address that is none. -/
theorem witness_MemoryAgentAnswers :
    (planned [.memAnswer] (waiting img0 .pml4 (.request 0))).nextMove = .memAnswer ∧
      img0.entryAt 0 = some 0x1001 ∧ img0.entryAt (0xFFFFFFFFFFFFFFFF#64).toNat = none := by decide

/-- MemoryAgentNeverVolunteers: nothing in flight, and an answer already given. -/
theorem witness_MemoryAgentNeverVolunteers :
    (planned [.memAnswer] (loaded img0)).nextMove = .memAnswer ∧ (∀ a, (loaded img0).memChan ≠ .request a) ∧
      (∀ a, (waiting img0 .pml4 (.answer { present := true, data := 0x1001 })).memChan ≠ .request a) :=
  ⟨by decide, fun _ => nofun, fun _ => nofun⟩

/-- RequesterOffersInOrder: the channel empty, and taken. -/
theorem witness_RequesterOffersInOrder :
    (planned [.offer] (loaded img0)).nextMove = .offer ∧ ({ loaded img0 with offers := [wordT1, 0] } : State).offers =
      wordT1 :: [0] ∧ (loaded img0).reqChan = none ∧ answered.reqChan ≠ none := by decide

/-! ### Witnesses: reset and signals -/

/-- ResetDropsHeldRequest: the move, and an edge with `rst` = 1. -/
theorem witness_ResetDropsHeldRequest :
    (planned [.reset] answered).nextMove = .reset ∧
      (planned [.edge ⟨true, true, true⟩] answered).nextMove = .edge ⟨true, true, true⟩ := by decide

/-- The states the invariants hold of: after reset, over a well-formed image, with any request on the channel. -/
theorem coherent_asked {img : Memory} (h : img.wf = true) (w : ReqWord) : Coherent (asked img w) := by
  refine ⟨h, ?_, ?_, ?_, ?_⟩ <;> simp [asked, loaded, State.withImage, State.reset, inFlightOk]

/-- In WAIT, a read request outstanding at level 1. -/
theorem coherent_waiting : Coherent (waiting img0 .pml4 (.request 0)) := by
  refine ⟨by decide, ?_, ?_, ?_, ?_⟩ <;>
    simp [waiting, loaded, State.withImage, State.reset, inFlightOk, entryNumber, index, indexAt]

/-- A response offered. -/
theorem coherent_answered : Coherent answered := by
  refine ⟨by decide, ?_, ?_, ?_, ?_⟩ <;> simp [answered, loaded, State.withImage, State.reset, inFlightOk]

/-- HandshakesTransfer, the response clause: RESPOND at an edge whose `rsp_ready` is 1. -/
theorem witness_HandshakesTransfer :
    Coherent answered ∧ answered.rspValid = true ∧
      runMove (.edge ⟨false, true, false⟩) answered = .next answered.respond :=
  ⟨coherent_answered, by decide, rfl⟩

/-- HandshakesTransfer, the request clause: `req_valid` and `req_ready` are 1. -/
theorem witness_HandshakesTransfer_request :
    Coherent (asked img0 wordT1) ∧ (asked img0 wordT1).reqValid = true ∧ (asked img0 wordT1).reqReady false = true ∧
      ∃ t, runMove (.edge ⟨false, false, false⟩) (asked img0 wordT1) = .next t ∧ t.reqChan = none :=
  ⟨coherent_asked (by decide) _, by decide, by decide, _, rfl, rfl⟩

/-- A machine in ISSUE at level 1, whatever its operands. -/
theorem coherent_issuing (va root : Word) : Coherent (issuing va root) := by
  refine ⟨rfl, ?_, ?_, ?_, ?_⟩ <;> simp [issuing, loaded, State.withImage, State.reset, inFlightOk]

/-- HandshakesTransfer, the read-request clause: a read goes out where `mem_req_ready` is 1, and is held where it is 0. -/
theorem witness_HandshakesTransfer_readRequest :
    Coherent (issuing 0xFF0000000000 0xFFFFFFFFFFFFF008) ∧
      (issuing 0xFF0000000000 0xFFFFFFFFFFFFF008).memReqValid = true ∧
      nextIs (runMove (.edge ⟨false, false, true⟩) (issuing 0xFF0000000000 0xFFFFFFFFFFFFF008))
        (fun t => t.readLog = [0xFFFFFFFFFFFFFFF8]) = true ∧
      nextIs (runMove (.edge ⟨false, false, false⟩) (issuing 0xFF0000000000 0xFFFFFFFFFFFFF008))
        (fun t => t.readLog = [] ∧ t.st = .issue) = true :=
  ⟨coherent_issuing _ _, by decide, by decide, by decide⟩

/-- HandshakesTransfer, the read-answer clause: `mem_rsp_valid` and `mem_rsp_ready` are 1. -/
theorem witness_HandshakesTransfer_readAnswer :
    Coherent (waiting img0 .pml4 (.answer { present := true, data := 0x1001 })) ∧
      (waiting img0 .pml4 (.answer { present := true, data := 0x1001 })).memRspValid = true ∧
      (waiting img0 .pml4 (.answer { present := true, data := 0x1001 })).memRspReady = true ∧
      ∃ t, runMove (.edge ⟨false, false, false⟩) (waiting img0 .pml4 (.answer { present := true, data := 0x1001 })) =
        .next t ∧ t.memChan = .empty := by
  refine ⟨⟨by decide, ?_, ?_, ?_, ?_⟩, by decide, by decide, _, rfl, rfl⟩ <;>
    simp [waiting, loaded, State.withImage, State.reset, inFlightOk, entryNumber, index, indexAt, img0,
      Memory.entryAt]

/-! ### Witnesses: invariants and whole-machine rules -/

/-- StepKeepsInvariants, HeldAddressAndOperationStay, OfferedRequestStays: the requester does not take the response yet. -/
theorem witness_StepKeepsInvariants :
    Coherent (planned [.ptw] answered) ∧ step (planned [.ptw] answered) = .next answered ∧ answered.st ≠ .idle ∧
      answered.reqChan = some wordT1 := by
  refine ⟨?_, rfl, by decide, rfl⟩
  obtain ⟨h1, h2, h3, h4, h5⟩ := coherent_answered
  exact ⟨h1, h2, h3, h4, h5⟩

/-- ImageNeverChanges: two steps of T1. -/
theorem witness_ImageNeverChanges :
    ∃ t, core.run 2 (asked img0 wordT1) = .next t ∧ t.taken = [{ fault := false, data := 0x4000 }] :=
  ⟨_, rfl, by decide⟩

/-- LevelNeverFalls: M1, line 4, from level 1 to level 2. -/
theorem witness_LevelNeverFalls :
    ∃ t, step (planned [.ptw] (waiting img0 .pml4 (.answer { present := true, data := 0x1001 }))) = .next t ∧
      t.st = .issue ∧ levelNumber t.lvl = 2 :=
  ⟨_, rfl, by decide, by decide⟩

/-- UnansweredReadWaits: a PTW that may move and clock edges, over and over, and never an answer: 5 steps of for ever. -/
theorem witness_UnansweredReadWaits :
    onlyMoves (fun m => noReset m && !answersRead m) 5
        (cycling [.ptw, .edge ⟨false, true, true⟩] (waiting img0 .pml4 (.request 0))) ∧
      ∃ t, core.run 5 (cycling [.ptw, .edge ⟨false, true, true⟩] (waiting img0 .pml4 (.request 0))) = .next t ∧
        t.st = .wait :=
  ⟨⟨rfl, Or.inr ⟨by decide, by decide⟩⟩, _, rfl, by decide⟩

/-- UntakenResponseHolds: clock edges with `rsp_ready` = 0 and new offers, over and over: 5 steps of for ever. -/
theorem witness_UntakenResponseHolds :
    onlyMoves (fun m => noReset m && !takesResponse m) 5 (cycling [.edge ⟨false, false, true⟩, .offer] answered) ∧
      ∃ t, core.run 5 (cycling [.edge ⟨false, false, true⟩, .offer] answered) = .next t ∧ t.st = .resp :=
  ⟨⟨rfl, Or.inr ⟨by decide, by decide⟩⟩, _, rfl, by decide⟩

/-- FairSchedulesAnswer: an agent's turn for each agent in turn, for ever. -/
theorem witness_FairSchedulesAnswer :
    Coherent (asked img0 wordT1) ∧ (asked img0 wordT1).st = .idle ∧ (asked img0 wordT1).reqChan = some wordT1 ∧
      Fair (fun n => if n % 3 = 0 then .ptw else if n % 3 = 1 then .memAnswer else .take) (asked img0 wordT1) := by
  refine ⟨coherent_asked (by decide) _, by decide, rfl, ?_, ?_, ?_, ?_⟩
  · intro n
    split
    · rfl
    · split <;> rfl
  · exact fun n => ⟨3 * n, by omega, by simp [movesPtw]⟩
  · exact fun n t a _ _ => ⟨3 * n + 1, by omega, by simp [answersRead, Nat.add_mod]⟩
  · exact fun n t _ _ => ⟨3 * n + 2, by omega, by simp [takesResponse, Nat.add_mod]⟩

/-! ### Witnesses: the two levels agree -/

/-- MicroStepsAgreeWithTransaction, MicroStepCounts: T1's request on the channel of a good idle state. -/
theorem witness_MicroSteps :
    Coherent (asked img0 wordT1) ∧ (asked img0 wordT1).st = .idle ∧ (asked img0 wordT1).reqChan = some wordT1 ∧
      decode wordT1 = .translate 0 0 :=
  ⟨coherent_asked (by decide) _, by decide, rfl, by decide⟩

/-- MicroStepCounts: an EXTRACT, T1's success, T2's fault at level 2, T15's overflow. -/
theorem witness_MicroStepCounts :
    (decode lastExtract).op = .extract ∧ translateVa 0 0 img0 = .ok 0x4000 ∧ causeHolds 0 img0Hole .pdpt 0x1000 .absent ∧
      decode 0x1FFFFFFFFFFFFF0080000FF8000000000 = .translate 0xFF8000000000 0xFFFFFFFFFFFFF008 ∧
      causeHolds 0xFF8000000000 img0 .pml4 0xFFFFFFFFFFFFF008 .overflow :=
  ⟨by decide, by decide, witness_absent.2, by decide, witness_RootOverflow.2⟩

/-- ScheduleDoesNotMatter, first clause: an edge with `rsp_ready` = 1 in WAIT, an answer, TAKE: still held. -/
theorem witness_ScheduleDoesNotMatter :
    Coherent (waiting img0 .pml4 (.request 0)) ∧
      [Move.edge ⟨false, true, true⟩, .memAnswer, .ptw].all noReset = true ∧
      (∃ t, follow [.edge ⟨false, true, true⟩, .memAnswer, .ptw] (waiting img0 .pml4 (.request 0)) = .next t ∧
        t.taken = [] ∧ t.st = .issue) ∧
      ∃ u, step { waiting img0 .pml4 (.request 0) with agenda := [], cycle := [] } = .next u ∧ u.st = .idle :=
  ⟨coherent_waiting, by decide, ⟨_, rfl, by decide, by decide⟩, ⟨_, rfl, by decide⟩⟩

/-- ScheduleDoesNotMatter, second clause: an edge with `rsp_ready` = 1 takes the response. -/
theorem witness_ScheduleDoesNotMatter_taken :
    Coherent answered ∧ answered.st ≠ .idle ∧
      (∃ t, follow [.edge ⟨false, true, true⟩] answered = .next t ∧ t.taken ≠ answered.taken) ∧
      ∃ u, step { answered with agenda := [], cycle := [] } = .next u :=
  ⟨coherent_answered, by decide, ⟨_, rfl, by decide⟩, ⟨_, rfl⟩⟩

/-- One clock edge with every `ready` at 1. -/
def tick : Move := .edge ⟨false, true, true⟩

/-- EveryScheduleGivesTheResponses: T12 by clock edges with every `ready` at 1 and one answer of the memory agent. -/
theorem witness_EveryScheduleGivesTheResponses :
    Coherent (asked [] wordT1) ∧ [tick, tick, .memAnswer, tick, tick].all noReset = true ∧
      ∃ t, follow [tick, tick, .memAnswer, tick, tick] (asked [] wordT1) = .next t ∧ t.st = .idle ∧
        t.taken = [{ fault := true, data := 0 }] ∧ t.readLog = [0] :=
  ⟨coherent_asked rfl _, by decide, _, rfl, by decide, by decide, by decide⟩

/-- EveryScheduleGivesTheResponses, last clause: T1 held up in its second read. -/
theorem witness_EveryScheduleGivesTheResponses_busy :
    ∃ t, follow [tick, tick, .memAnswer, tick, tick] (asked img0 wordT1) = .next t ∧ t.st = .wait ∧
      t.readLog = [0, 0x1000] :=
  ⟨_, rfl, by decide, by decide⟩

/-- BatchBySequencer and CanonicalImagesAreEqual. -/
theorem witness_image_form : img0.wf = true ∧ img13.wf = true := by decide

/-- CanonicalImagesAreEqual, both clauses: an image with the largest key, and a number no image has. -/
theorem witness_CanonicalImagesAreEqual :
    Memory.wf [(2 ^ 64 - 1, 1)] = true ∧ Memory.entryAt [(2 ^ 64 - 1, 1)] (2 ^ 64 - 1) = some 1 ∧
      Memory.entryAt [(2 ^ 64 - 1, 1)] (2 ^ 64) = none := by decide

/-! ### The text forms -/

/-- R61: T5's request and result as the spec writes them. -/
theorem test_text :
    requestText (.translate 0 4096) = "TRANSLATE 0, 4096" ∧ resultText (.ok 0xABCDE567) = "2882397543" := by decide

end Sys2Proof.Tests
end

section
/-! The step of an idle PTW with prompt agents (R9, R82; log 1), and the word that is placed where that step takes its
request from (log 11). -/

namespace Sys2Proof

/-! ### The decoder on numbers -/

/-- A number of at most 129 bits is a request word (R46, R49). -/
theorem decodeNumber_of_lt {w : Nat} (h : w < 2 ^ 129) : decodeNumber w = .ok (decode (BitVec.ofNat 129 w)) :=
  if_pos (decide_eq_true h)

theorem tableWord_of_lt {nbits w : Nat} (h : w < 2 ^ nbits) : tableWord nbits w = w :=
  Nat.mod_eq_of_lt h

theorem decodeTableWord_of_lt {nbits w : Nat} (hn : w < 2 ^ nbits) (h : w < 2 ^ 129) :
    decodeTableWord nbits w = some (decode (BitVec.ofNat 129 w)) := by
  rw [decodeTableWord, tableWord_of_lt hn, decodeNumber_of_lt h]
  rfl

namespace Machine

/-! ### A step with prompt agents -/

theorem transact_of_request {s : State} {w : ReqWord} (hst : s.st = .idle) (hw : s.reqChan = some w) :
    transact s = exec (decode w) { s with reqChan := none } := by
  rw [transact, if_pos hst, hw]

theorem step_of_nextMove {s : State} {m : Move} (h : s.nextMove = m) : step s = runMove m s.dropMove := by
  rw [step, h]

/-- Settles O28: the next move is `transact`, and taking it off the agenda leaves `st` and the request channel alone. -/
theorem stepRunsDecodedRequest : Obligations.StepRunsDecodedRequest := by
  intro s w hm hst hw
  have hst' : s.dropMove.st = .idle := (State.dropMove_st s).trans hst
  have hw' : s.dropMove.reqChan = some w := (State.dropMove_reqChan s).trans hw
  calc step s = transact s.dropMove := step_of_nextMove hm
    _ = exec (decode w) { s.dropMove with reqChan := none } := transact_of_request hst' hw'

/-! ### A placed word -/

/-- With neither agenda nor cycle the agents are prompt (log 1). -/
theorem withRequest_nextMove (w : ReqWord) (s : State) : (s.withRequest w).nextMove = .transact :=
  rfl

theorem step_withRequest (w : ReqWord) (s : State) :
    step (s.withRequest w) =
      exec (decode w) { s with st := .idle, memChan := .empty, reqChan := none, agenda := [], cycle := [] } :=
  stepRunsDecodedRequest (s.withRequest w) w (withRequest_nextMove w s) (State.withRequest_st w s)
    (State.withRequest_reqChan w s)

/-- A table word that fits its width is placed as it is. -/
theorem withFetchWord_of_lt {nbits w : Nat} (h : w < 2 ^ nbits) (s : State) :
    s.withFetchWord nbits w = s.withRequest (BitVec.ofNat 129 w) := by
  rw [State.withFetchWord, placeTableWord, tableWord_of_lt h]

/-- Settles O29: the decoder of table words and the placing of the word keep the same 129 bits, and the step that
follows runs them as O28 says. -/
theorem placedWordRuns : Obligations.PlacedWordRuns := by
  intro s nbits w hn h
  refine ⟨decode (BitVec.ofNat 129 w), decodeTableWord_of_lt hn h, ?_⟩
  rw [withFetchWord_of_lt hn, step_withRequest]

end Machine

end Sys2Proof
end

section
/-! One step as a function (log 1), and what a step can do to a request that is inside the PTW (R12 to R14, R78 to R83,
R99): it ends in IDLE, or it keeps the request and moves its level by at most one. -/

namespace Sys2Proof.Machine

open Sys2Proof.Safety

theorem step_eq_afterMove (s : State) : step s = .next (s.dropMove.afterMove s.nextMove) :=
  runMove_eq s.nextMove s.dropMove

theorem eq_afterMove_of_step {s t : State} (h : step s = .next t) : t = s.dropMove.afterMove s.nextMove := by
  rw [step_eq_afterMove] at h
  exact (Host.Outcome.next.inj h).symm

/-! ### The level register -/

theorem levelNumber_nextLevel {k k' : Level} (h : nextLevel k = some k') : levelNumber k' = levelNumber k + 1 := by
  cases k <;> cases h <;> rfl

/-! ### TAKE -/

theorem takeStep_answer {s : State} {m : Mrsp} (h : s.memChan = .answer m) :
    s.takeStep = ({ s with memChan := .empty } : State).takeAnswer m := by
  simp only [State.takeStep, h]

theorem takeStep_noAnswer {s : State} (h : ∀ m, s.memChan ≠ .answer m) : s.takeStep = s := by
  unfold State.takeStep
  split
  · exact absurd ‹_› (h _)
  · rfl

theorem takeAnswer_st (m : Mrsp) (s : State) : (s.takeAnswer m).st = .issue ∨ (s.takeAnswer m).st = .resp := by
  rcases takeAnswer_cases m s with ⟨_, h⟩ | ⟨_, _, ⟨k, _, h⟩ | ⟨_, h⟩⟩ <;> rw [h]
  · exact Or.inr rfl
  · exact Or.inl rfl
  · exact Or.inr rfl

/-! ### The prompt completion -/

/-- M-ANSWER leaves no read request unanswered. -/
theorem memAnswer_memChan_cases (s : State) :
    (∃ m, s.memAnswer.memChan = .answer m) ∨ (s.memChan = .empty ∧ s.memAnswer = s) := by
  cases hm : s.memChan with
  | empty => exact Or.inr ⟨rfl, memAnswer_nothing (by simp [hm])⟩
  | answer m => exact Or.inl ⟨m, by rw [memAnswer_nothing (by simp [hm]), hm]⟩
  | request a =>
    cases hr : s.img.read a with
    | none => exact Or.inl ⟨_, by rw [memAnswer_absent hm hr]⟩
    | some e => exact Or.inl ⟨_, by rw [memAnswer_present hm hr]⟩

/-- A held request gets its result, unless the PTW is in WAIT with nothing in flight (log 8). -/
theorem finishHeld_cases {s : State} (h : s.st ≠ .idle) : s.finishHeld.st = .resp ∨ s.finishHeld = s := by
  cases hst : s.st with
  | idle => exact absurd hst h
  | resp => exact Or.inr (finishHeld_of_resp hst)
  | issue => exact Or.inl (by simp only [State.finishHeld, hst, finishWalk_st])
  | wait =>
    simp only [State.finishHeld, hst]
    rcases memAnswer_memChan_cases s with ⟨m, hm⟩ | ⟨hm, hs⟩
    · refine Or.inl ?_
      split
      · exact finishWalk_st _
      · next hne =>
        rw [takeStep_answer hm] at hne ⊢
        exact (takeAnswer_st m _).resolve_left hne
    · have hq : s.takeStep = s := takeStep_noAnswer (by simp [hm])
      exact Or.inr (by simp [hs, hq, hst])

theorem respond_cases (s : State) : s.respond.st = .idle ∨ s.respond = s := by
  by_cases h : s.st = .resp
  · exact Or.inl (by rw [respond_of_resp h])
  · exact Or.inr (respond_of_not_resp h)

theorem runHeld_cases {s : State} (h : s.st ≠ .idle) : s.runHeld.st = .idle ∨ s.runHeld = s := by
  rcases finishHeld_cases h with hr | hs
  · exact Or.inl (by rw [State.runHeld, respond_of_resp hr])
  · rw [State.runHeld, hs]
    exact respond_cases s

/-! ### A request inside the PTW -/

/-- `t` holds the request that `s` holds, at the same level or the next one. -/
structure State.HoldsOn (s t : State) : Prop where
  vaQ : t.vaQ = s.vaQ
  opQ : t.opQ = s.opQ
  lvl : t.lvl = s.lvl ∨ nextLevel s.lvl = some t.lvl

theorem holdsOn_refl (s : State) : s.HoldsOn s :=
  ⟨rfl, rfl, Or.inl rfl⟩

theorem holdsOn_offer (s : State) : s.HoldsOn s.offer :=
  ⟨s.offer_vaQ, s.offer_opQ, Or.inl s.offer_lvl⟩

theorem holdsOn_memAnswer (s : State) : s.HoldsOn s.memAnswer :=
  ⟨s.memAnswer_vaQ, s.memAnswer_opQ, Or.inl s.memAnswer_lvl⟩

theorem holdsOn_issueStep (s : State) : s.HoldsOn s.issueStep := by
  rcases issueStep_cases s with ⟨_, h⟩ | ⟨a, _, _, h⟩ <;> rw [h] <;> exact ⟨rfl, rfl, Or.inl rfl⟩

theorem holdsOn_takeAnswer (m : Mrsp) (s : State) : s.HoldsOn (s.takeAnswer m) := by
  rcases takeAnswer_cases m s with ⟨_, h⟩ | ⟨_, _, ⟨k, hk, h⟩ | ⟨_, h⟩⟩ <;> rw [h]
  · exact ⟨rfl, rfl, Or.inl rfl⟩
  · exact ⟨rfl, rfl, Or.inr hk⟩
  · exact ⟨rfl, rfl, Or.inl rfl⟩

theorem holdsOn_takeStep (s : State) : s.HoldsOn s.takeStep := by
  unfold State.takeStep
  split
  · next m _ =>
    obtain ⟨hva, hop, hlvl⟩ := holdsOn_takeAnswer m { s with memChan := .empty }
    exact ⟨hva, hop, hlvl⟩
  · exact holdsOn_refl s

/-- No micro-step but ACCEPT writes the operands. -/
theorem holdsOn_ptwStep {s : State} (h : s.st ≠ .idle) : s.HoldsOn s.ptwStep := by
  unfold State.ptwStep
  split
  · exact absurd ‹_› h
  · exact holdsOn_issueStep s
  · exact holdsOn_takeStep s
  · exact holdsOn_refl s

theorem idle_or_holdsOn_of_eq {s t : State} (h : t.st = .idle ∨ t = s) : t.st = .idle ∨ s.HoldsOn t :=
  h.imp_right fun ht => by rw [ht]; exact holdsOn_refl s

theorem clockEdge_of_busy {p : Pins} {s : State} (h : s.st ≠ .idle) :
    (s.clockEdge p).st = .idle ∨ s.HoldsOn (s.clockEdge p) := by
  rcases clockEdge_cases p s with ⟨_, he⟩ | ⟨_, he | he | ⟨_, he⟩⟩ <;> rw [he]
  · exact Or.inl s.resetPtw_st
  · exact Or.inr (holdsOn_ptwStep h)
  · exact Or.inr (holdsOn_refl s)
  · exact idle_or_holdsOn_of_eq (respond_cases s)

/-- Whatever the move, a request inside the PTW leaves it or is held on. -/
theorem afterMove_of_busy (m : Move) {s : State} (h : s.st ≠ .idle) :
    (s.afterMove m).st = .idle ∨ s.HoldsOn (s.afterMove m) := by
  cases m with
  | transact =>
    rw [afterMove_transact_held h]
    exact idle_or_holdsOn_of_eq (runHeld_cases h)
  | offer => exact Or.inr (holdsOn_offer s)
  | ptw => exact Or.inr (holdsOn_ptwStep h)
  | memAnswer => exact Or.inr (holdsOn_memAnswer s)
  | take => exact idle_or_holdsOn_of_eq (respond_cases s)
  | reset => exact Or.inl s.resetPtw_st
  | edge p => exact clockEdge_of_busy h

/-- A step that begins and ends with a request inside the PTW holds on to it. -/
theorem holdsOn_step {s t : State} (hs : s.st ≠ .idle) (ht : t.st ≠ .idle) (h : step s = .next t) : s.HoldsOn t := by
  obtain rfl := eq_afterMove_of_step h
  have hd : s.dropMove.st ≠ .idle := hs
  obtain ⟨hva, hop, hlvl⟩ := (afterMove_of_busy s.nextMove hd).resolve_left ht
  exact ⟨hva, hop, hlvl⟩

theorem not_idle_of_walking {s : State} (h : s.st = .issue ∨ s.st = .wait) : s.st ≠ .idle := by
  rcases h with h | h <;> simp [h]

/-- Settles O44: a held walk keeps its level or goes to the next one. -/
theorem levelNeverFalls : Obligations.LevelNeverFalls := by
  intro s t hs ht h
  rcases (holdsOn_step (not_idle_of_walking hs) (not_idle_of_walking ht) h).lvl with hl | hl
  · rw [hl]
    exact ⟨le_rfl, Nat.le_succ _⟩
  · rw [levelNumber_nextLevel hl]
    exact ⟨Nat.le_succ _, le_rfl⟩

/-- Settles O45: a step that neither accepts a request nor ends in IDLE holds on to the request. -/
theorem heldAddressAndOperationStay : Obligations.HeldAddressAndOperationStay := by
  intro s t hs ht h
  have hold := holdsOn_step hs ht h
  exact ⟨hold.vaQ, hold.opQ⟩

end Sys2Proof.Machine
end

section
/-! The invariants of R24 and the canonical form of R25: what `Coherent` asks in each value of `st`, that every operation
keeps it, and so every move and every step. -/

namespace Sys2Proof.Machine

open Sys2Proof.Safety

/-! ### What the invariants ask in each value of `st` -/

theorem coherent_of_idle {s : State} (himg : s.img.wf = true) (hst : s.st = .idle) (hm : s.memChan = .empty) :
    Coherent s where
  image := himg
  base := by simp [hst]
  op := by simp [hst]
  inFlight := by simp [inFlightOk, hm, hst]
  result := by simp [hst]

theorem coherent_of_resp {s : State} (himg : s.img.wf = true) (hst : s.st = .resp) (hm : s.memChan = .empty)
    (hres : s.resFault = true → s.resData = 0) : Coherent s where
  image := himg
  base := by simp [hst]
  op := by simp [hst]
  inFlight := by simp [inFlightOk, hm, hst]
  result := fun _ => hres

theorem coherent_of_issue {s : State} (himg : s.img.wf = true) (hst : s.st = .issue) (hm : s.memChan = .empty)
    (hbase : s.lvl ≠ .pml4 → s.baseQ &&& ~~~baseMask = 0) (hop : s.opQ = .translate) : Coherent s where
  image := himg
  base := fun _ => hbase
  op := fun _ => hop
  inFlight := by simp [inFlightOk, hm, hst]
  result := by simp [hst]

/-- Nothing is in flight outside WAIT (R24 c). -/
theorem memChan_empty_of_coherent {s : State} (h : Coherent s) (hst : s.st ≠ .wait) : s.memChan = .empty := by
  have hf := h.inFlight
  unfold inFlightOk at hf
  split at hf
  · assumption
  · exact absurd hf.1 hst
  · exact absurd hf.1 hst

/-- A read request in flight is the held level's entry address (R24 c). -/
theorem request_of_coherent {s : State} {a : Word} (h : Coherent s) (hm : s.memChan = .request a) :
    s.st = .wait ∧ a.toNat = entryNumber s.vaQ s.lvl s.baseQ := by
  simpa only [inFlightOk, hm] using h.inFlight

theorem wait_of_answer {s : State} {m : Mrsp} (h : Coherent s) (hm : s.memChan = .answer m) : s.st = .wait := by
  by_contra hst
  simp [memChan_empty_of_coherent h hst] at hm

/-! ### The requester's side -/

theorem coherent_dropMove {s : State} (h : Coherent s) : Coherent s.dropMove :=
  ⟨h.image, h.base, h.op, h.inFlight, h.result⟩

theorem coherent_offer {s : State} (h : Coherent s) : Coherent s.offer := by
  rcases offer_cases s with ⟨w, ws, _, _, ho⟩ | ho <;> rw [ho]
  · exact ⟨h.image, h.base, h.op, h.inFlight, h.result⟩
  · exact h

theorem coherent_respond {s : State} (h : Coherent s) : Coherent s.respond := by
  by_cases hst : s.st = .resp
  · have hm : s.memChan = .empty := memChan_empty_of_coherent h (by simp [hst])
    rw [respond_of_resp hst]
    exact coherent_of_idle h.image rfl hm
  · rw [respond_of_not_resp hst]
    exact h

/-! ### The memory agent -/

/-- The answer put on the channel is what the image gives at the held level's entry address. -/
theorem coherent_memAnswer {s : State} (h : Coherent s) : Coherent s.memAnswer := by
  cases hm : s.memChan with
  | empty => rwa [memAnswer_nothing (by simp [hm])]
  | answer m => rwa [memAnswer_nothing (by simp [hm])]
  | request a =>
    obtain ⟨hst, ha⟩ := request_of_coherent h hm
    have hread : s.img.entryAt (entryNumber s.vaQ s.lvl s.baseQ) = s.img.read a := by rw [← ha, Memory.read]
    cases hr : s.img.read a with
    | none =>
      rw [memAnswer_absent hm hr]
      exact ⟨h.image, h.base, h.op, ⟨hst, hread.trans hr⟩, h.result⟩
    | some e =>
      rw [memAnswer_present hm hr]
      exact ⟨h.image, h.base, h.op, ⟨hst, hread.trans hr⟩, h.result⟩

/-! ### The micro-steps -/

theorem coherent_acceptInstr (i : Instr) {s : State} (himg : s.img.wf = true) (hm : s.memChan = .empty) :
    Coherent (s.acceptInstr i) := by
  cases i with
  | extract va root => exact coherent_of_resp (s := s.acceptExtract va) himg rfl hm (by simp)
  | translate va root => exact coherent_of_issue (s := s.acceptTranslate va root) himg rfl hm (by simp) rfl

theorem coherent_acceptStep {s : State} (h : Coherent s) (hst : s.st = .idle) : Coherent s.acceptStep := by
  have hm : s.memChan = .empty := memChan_empty_of_coherent h (by simp [hst])
  rcases acceptStep_cases s with ⟨w, _, ha⟩ | ⟨_, ha⟩ <;> rw [ha]
  · exact coherent_acceptInstr _ h.image hm
  · exact h

theorem coherent_issueStep {s : State} (h : Coherent s) (hst : s.st = .issue) : Coherent s.issueStep := by
  have hm : s.memChan = .empty := memChan_empty_of_coherent h (by simp [hst])
  rcases issueStep_cases s with ⟨_, hi⟩ | ⟨a, ha, _, hi⟩ <;> rw [hi]
  · exact coherent_of_resp h.image rfl hm fun _ => rfl
  · exact
      { image := h.image
        base := fun _ => h.base (Or.inl hst)
        op := fun _ => h.op (Or.inl hst)
        inFlight := ⟨rfl, ha.symm⟩
        result := by simp }

/-- Descending masks the base (R73), which is what R24 (b) asks from level 2 on. -/
theorem coherent_takeAnswer (m : Mrsp) {s : State} (himg : s.img.wf = true) (hm : s.memChan = .empty)
    (hop : s.opQ = .translate) : Coherent (s.takeAnswer m) := by
  rcases takeAnswer_cases m s with ⟨_, h⟩ | ⟨_, _, ⟨k, _, h⟩ | ⟨_, h⟩⟩ <;> rw [h]
  · exact coherent_of_resp himg rfl hm fun _ => rfl
  · exact coherent_of_issue himg rfl hm (fun _ => nextBase_masked m.data) hop
  · exact coherent_of_resp himg rfl hm (by simp)

theorem coherent_takeStep {s : State} (h : Coherent s) : Coherent s.takeStep := by
  cases hm : s.memChan with
  | empty => rwa [takeStep_noAnswer (by simp [hm])]
  | request a => rwa [takeStep_noAnswer (by simp [hm])]
  | answer m =>
    rw [takeStep_answer hm]
    exact coherent_takeAnswer m h.image rfl (h.op (Or.inr (wait_of_answer h hm)))

theorem coherent_ptwStep {s : State} (h : Coherent s) : Coherent s.ptwStep := by
  unfold State.ptwStep
  split
  · exact coherent_acceptStep h ‹_›
  · exact coherent_issueStep h ‹_›
  · exact coherent_takeStep h
  · exact h

/-! ### Reset, clock edges and the prompt completion -/

theorem coherent_resetPtw {s : State} (h : Coherent s) : Coherent s.resetPtw :=
  coherent_of_idle h.image rfl rfl

theorem coherent_clockEdge (p : Pins) {s : State} (h : Coherent s) : Coherent (s.clockEdge p) := by
  rcases clockEdge_cases p s with ⟨_, he⟩ | ⟨_, he | he | ⟨_, he⟩⟩ <;> rw [he]
  · exact coherent_resetPtw h
  · exact coherent_ptwStep h
  · exact h
  · exact coherent_respond h

/-- A Fault's payload is zero (R55). -/
theorem data_of_faultTag {r : Result} (h : faultTag r = true) : r.toRsp.data = 0 := by
  cases r with
  | ok v => cases h
  | fault => rfl

theorem coherent_finishWalk {s : State} (himg : s.img.wf = true) (hm : s.memChan = .empty) : Coherent s.finishWalk := by
  refine coherent_of_resp ?_ (finishWalk_st s) ?_ ?_
  · simpa [State.finishWalk] using himg
  · simpa [State.finishWalk] using hm
  · simpa [State.finishWalk] using data_of_faultTag

theorem coherent_finishWalk_of_issue {s : State} (h : Coherent s) (hst : s.st = .issue) : Coherent s.finishWalk :=
  coherent_finishWalk h.image (memChan_empty_of_coherent h (by simp [hst]))

theorem coherent_finishHeld {s : State} (h : Coherent s) : Coherent s.finishHeld := by
  unfold State.finishHeld
  split
  · exact coherent_finishWalk_of_issue h ‹_›
  · have ht : Coherent s.memAnswer.takeStep := coherent_takeStep (coherent_memAnswer h)
    dsimp only
    split
    · exact coherent_finishWalk_of_issue ht ‹_›
    · exact ht
  · exact h

theorem coherent_runHeld {s : State} (h : Coherent s) : Coherent s.runHeld :=
  coherent_respond (coherent_finishHeld h)

theorem coherent_transact {s : State} (h : Coherent s) : Coherent (s.afterMove .transact) := by
  by_cases hst : s.st = .idle
  · rcases Option.eq_none_or_eq_some s.reqChan with hw | ⟨w, hw⟩
    · rw [afterMove_transact_quiet hst hw]
      exact coherent_offer h
    · have hm : s.memChan = .empty := memChan_empty_of_coherent h (by simp [hst])
      rw [afterMove_transact_request hst hw]
      exact coherent_runHeld (coherent_acceptInstr _ h.image hm)
  · rw [afterMove_transact_held hst]
    exact coherent_runHeld h

/-! ### Every move -/

theorem coherent_afterMove (m : Move) {s : State} (h : Coherent s) : Coherent (s.afterMove m) := by
  cases m with
  | transact => exact coherent_transact h
  | offer => exact coherent_offer h
  | ptw => exact coherent_ptwStep h
  | memAnswer => exact coherent_memAnswer h
  | take => exact coherent_respond h
  | reset => exact coherent_resetPtw h
  | edge p => exact coherent_clockEdge p h

/-- Settles O40. -/
theorem resetHasInvariants : Obligations.ResetHasInvariants :=
  coherent_of_idle rfl rfl rfl

/-- Settles O41: a step is a move made with that move off the agenda. -/
theorem stepKeepsInvariants : Obligations.StepKeepsInvariants := by
  intro s t hs h
  rw [eq_afterMove_of_step h]
  exact coherent_afterMove s.nextMove (coherent_dropMove hs)

end Sys2Proof.Machine
end

section
/-! What an idle PTW makes of a request (R64, R77, R83): the whole next state. The result and the reads come from the
request and the image alone. -/

namespace Sys2Proof.Machine

/-- A result that is set and taken is the response of that result (R16, R54, R81). -/
theorem respond_setResult (r : Result) (s : State) :
    (s.setResult r).respond =
      { s with
        st := .idle
        resFault := faultTag r
        resData := r.toRsp.data
        taken := s.taken ++ [r.toRsp] } := by
  rw [respond_of_resp (s.setResult_st r)]
  cases r <;> rfl

theorem exec_of_idle (i : Instr) {s : State} (h : s.st = .idle) : exec i s = .next (s.acceptInstr i).runHeld := by
  rcases exec_cases i s with ⟨_, he⟩ | ⟨hn, _⟩
  · exact he
  · exact absurd h hn

/-! ### EXTRACT -/

theorem runHeld_acceptExtract (va : Word) (s : State) :
    (s.acceptExtract va).runHeld =
      { s.acceptExtract va with
        st := .idle
        taken := s.taken ++ [{ fault := false, data := packIndices (extractIndices va) }] } := by
  rw [State.runHeld, finishHeld_of_resp (s.acceptExtract_st va), respond_of_resp (s.acceptExtract_st va)]
  rfl

/-! ### TRANSLATE -/

/-- The registers and records after a walk that began at level 1. -/
def State.afterWalk (va : Word) (w : Walk) (s : State) : State :=
  { s with
    st := .idle
    opQ := .translate
    vaQ := va
    lvl := w.lvl
    baseQ := w.base
    resFault := faultTag w.result
    resData := w.result.toRsp.data
    readLog := s.readLog ++ w.reads
    draws := s.draws + w.draws
    taken := s.taken ++ [w.result.toRsp] }

theorem finishHeld_acceptTranslate (va root : Word) (s : State) :
    (s.acceptTranslate va root).finishHeld = (s.acceptTranslate va root).finishWalk :=
  rfl

theorem runHeld_acceptTranslate (va root : Word) (s : State) :
    (s.acceptTranslate va root).runHeld = s.afterWalk va (fullWalk va root s.img) := by
  rw [State.runHeld, finishHeld_acceptTranslate, State.finishWalk, respond_setResult]
  rfl

/-- Settles O27: an EXTRACT's response is a function of the address, and a TRANSLATE's response, reads and registers are
those of the walk of the image. -/
theorem nothingCarriesOver : Obligations.NothingCarriesOver := by
  intro i s s' hs hs' himg
  refine ⟨_, _, exec_of_idle i hs, exec_of_idle i hs', ?_⟩
  cases i with
  | extract va root =>
    simp only [State.acceptInstr, runHeld_acceptExtract]
    refine ⟨rfl, rfl, (List.append_nil _).symm, (List.append_nil _).symm, rfl, rfl, rfl, rfl, ?_⟩
    intro hop
    cases hop
  | translate va root =>
    simp only [State.acceptInstr, runHeld_acceptTranslate, ← himg]
    exact ⟨rfl, rfl, rfl, rfl, rfl, rfl, rfl, rfl, fun _ => ⟨rfl, rfl⟩⟩

end Sys2Proof.Machine
end

section
/-! M-ANSWER as a step (R31; log 4), and the image as a constant of the run: no operation writes it (R38, R105). -/

namespace Sys2Proof.Machine

/-! ### The memory agent's step -/

theorem step_memAnswer {s : State} (h : s.nextMove = .memAnswer) : step s = .next s.dropMove.memAnswer :=
  step_of_nextMove h

/-- Settles O34: the free value of log 4 is the next draw of `Config.absentData`. -/
theorem memoryAgentAnswers : Obligations.MemoryAgentAnswers := by
  intro s a hm hreq
  have hreq' : s.dropMove.memChan = .request a := (State.dropMove_memChan s).trans hreq
  constructor
  · intro e he
    rw [step_memAnswer hm, memAnswer_present hreq' he]
    rfl
  · intro hnone
    refine ⟨Config.absentData s.draws, s.draws + 1, ?_⟩
    rw [step_memAnswer hm, memAnswer_absent hreq' hnone]
    rfl

/-- Settles O35: without a read request M-ANSWER changes nothing, so the step only takes the move off the agenda. -/
theorem memoryAgentNeverVolunteers : Obligations.MemoryAgentNeverVolunteers := by
  intro s hm hreq
  have hreq' : ∀ a, s.dropMove.memChan ≠ .request a := hreq
  rw [step_memAnswer hm, memAnswer_nothing hreq']
  rfl

/-! ### No operation writes the image -/

@[simp] theorem acceptInstr_img (i : Instr) (s : State) : (s.acceptInstr i).img = s.img := by
  cases i <;> rfl

@[simp] theorem acceptStep_img (s : State) : s.acceptStep.img = s.img := by
  rcases acceptStep_cases s with ⟨w, _, h⟩ | ⟨_, h⟩ <;> rw [h]
  rw [acceptInstr_img]

@[simp] theorem issueStep_img (s : State) : s.issueStep.img = s.img := by
  rcases issueStep_cases s with ⟨_, h⟩ | ⟨a, _, _, h⟩ <;> rw [h] <;> rfl

@[simp] theorem takeAnswer_img (m : Mrsp) (s : State) : (s.takeAnswer m).img = s.img := by
  rcases takeAnswer_cases m s with ⟨_, h⟩ | ⟨_, _, ⟨k, _, h⟩ | ⟨_, h⟩⟩ <;> rw [h] <;> rfl

@[simp] theorem takeStep_img (s : State) : s.takeStep.img = s.img := by
  unfold State.takeStep
  split
  · rw [takeAnswer_img]
  · rfl

@[simp] theorem ptwStep_img (s : State) : s.ptwStep.img = s.img := by
  unfold State.ptwStep
  split
  · exact acceptStep_img s
  · exact issueStep_img s
  · exact takeStep_img s
  · rfl

@[simp] theorem finishWalk_img (s : State) : s.finishWalk.img = s.img := by
  simp [State.finishWalk]

@[simp] theorem finishHeld_img (s : State) : s.finishHeld.img = s.img := by
  have htake : s.memAnswer.takeStep.img = s.img := by simp
  unfold State.finishHeld
  split
  · exact finishWalk_img s
  · dsimp only
    split
    · exact (finishWalk_img _).trans htake
    · exact htake
  · rfl

@[simp] theorem runHeld_img (s : State) : s.runHeld.img = s.img := by
  simp [State.runHeld]

@[simp] theorem clockEdge_img (p : Pins) (s : State) : (s.clockEdge p).img = s.img := by
  rcases clockEdge_cases p s with ⟨_, h⟩ | ⟨_, h | h | ⟨_, h⟩⟩ <;> rw [h]
  · rfl
  · exact ptwStep_img s
  · exact State.respond_img s

theorem afterMove_transact_img (s : State) : (s.afterMove .transact).img = s.img := by
  by_cases hst : s.st = .idle
  · rcases Option.eq_none_or_eq_some s.reqChan with hw | ⟨w, hw⟩
    · rw [afterMove_transact_quiet hst hw, State.offer_img]
    · rw [afterMove_transact_request hst hw, runHeld_img, acceptInstr_img]
  · rw [afterMove_transact_held hst, runHeld_img]

/-- No move writes the image, a reset no more than the others. -/
theorem afterMove_img (m : Move) (s : State) : (s.afterMove m).img = s.img := by
  cases m with
  | transact => exact afterMove_transact_img s
  | offer => exact State.offer_img s
  | ptw => exact ptwStep_img s
  | memAnswer => exact State.memAnswer_img s
  | take => exact State.respond_img s
  | reset => rfl
  | edge p => exact clockEdge_img p s

theorem step_img {s t : State} (h : step s = .next t) : t.img = s.img := by
  rw [eq_afterMove_of_step h, afterMove_img, State.dropMove_img]

/-! ### Runs -/

/-- A run of `n + 1` steps makes the first and then `n` more from the state it gives. -/
theorem core_run_succ (n : Nat) (s : State) :
    core.run (n + 1) s = core.run n (s.dropMove.afterMove s.nextMove) := by
  have h : core.step s = .next (s.dropMove.afterMove s.nextMove) := step_eq_afterMove s
  simp only [Host.Core.run, h]

/-- Settles O43, by induction on the number of steps. -/
theorem imageNeverChanges : Obligations.ImageNeverChanges := by
  intro n
  induction n with
  | zero =>
    intro s t h
    obtain rfl := Host.Outcome.next.inj h
    rfl
  | succ n ih =>
    intro s t h
    rw [core_run_succ] at h
    exact (ih _ t h).trans (step_img (step_eq_afterMove s))

end Sys2Proof.Machine
end

section
/-! The canonical form of an image (R25; log 3): among such lists the partial function that reads see fixes the list. -/

namespace Sys2Proof.Machine

theorem Memory.entryAt_cons_self (k : Nat) (v : Word) (m : Memory) : Memory.entryAt ((k, v) :: m) k = some v :=
  if_pos rfl

theorem Memory.entryAt_cons_ne {k a : Nat} (h : k ≠ a) (v : Word) (m : Memory) :
    Memory.entryAt ((k, v) :: m) a = m.entryAt a :=
  if_neg h

/-- The first key of a canonical list is its least one. -/
theorem Memory.le_of_entryAt_cons {lo k a : Nat} {v e : Word} {m : Memory}
    (hm : Memory.wfFrom lo ((k, v) :: m) = true) (ha : Memory.entryAt ((k, v) :: m) a = some e) : k ≤ a := by
  obtain ⟨_, hk, htail⟩ := Memory.wfFrom_cons.mp hm
  have hfrom : Memory.wfFrom k ((k, v) :: m) = true := Memory.wfFrom_cons.mpr ⟨le_rfl, hk, htail⟩
  by_contra hlt
  rw [Memory.entryAt_below hfrom (Nat.lt_of_not_le hlt)] at ha
  cases ha

/-- Canonical lists with equal entries are equal: their first keys are the least ones of both, and what follows holds
nothing at that key. -/
theorem Memory.eq_of_entryAt_eq {m m' : Memory} {lo lo' : Nat} (hm : Memory.wfFrom lo m = true)
    (hm' : Memory.wfFrom lo' m' = true) (h : ∀ a, m.entryAt a = m'.entryAt a) : m = m' := by
  induction m generalizing m' lo lo' with
  | nil =>
    cases m' with
    | nil => rfl
    | cons p' t' =>
      have hp := h p'.1
      rw [Memory.entryAt_cons_self] at hp
      cases hp
  | cons p t ih =>
    obtain ⟨k, v⟩ := p
    cases m' with
    | nil =>
      have hp := h k
      rw [Memory.entryAt_cons_self] at hp
      cases hp
    | cons p' t' =>
      obtain ⟨k', v'⟩ := p'
      have hk : k ≤ k' := Memory.le_of_entryAt_cons hm ((h k').trans (Memory.entryAt_cons_self k' v' t'))
      have hk' : k' ≤ k := Memory.le_of_entryAt_cons hm' ((h k).symm.trans (Memory.entryAt_cons_self k v t))
      obtain rfl : k = k' := le_antisymm hk hk'
      obtain rfl : v = v' := by simpa only [Memory.entryAt_cons_self, Option.some.injEq] using h k
      obtain ⟨_, _, htail⟩ := Memory.wfFrom_cons.mp hm
      obtain ⟨_, _, htail'⟩ := Memory.wfFrom_cons.mp hm'
      have hrest : ∀ a, Memory.entryAt t a = Memory.entryAt t' a := by
        intro a
        by_cases ha : k = a
        · have hlt : a < k + 1 := by omega
          rw [Memory.entryAt_below htail hlt, Memory.entryAt_below htail' hlt]
        · simpa only [Memory.entryAt_cons_ne ha] using h a
      rw [ih htail htail' hrest]

/-- Reads reach every number that can be a key, and no other number is one. -/
theorem Memory.entryAt_eq_of_read_eq {m m' : Memory} (hm : m.wf = true) (hm' : m'.wf = true)
    (h : ∀ a : Word, m.read a = m'.read a) (a : Nat) : m.entryAt a = m'.entryAt a := by
  rcases Nat.lt_or_ge a (2 ^ 64) with ha | ha
  · have hread := h (BitVec.ofNat 64 a)
    rwa [Memory.read, Memory.read, BitVec.toNat_ofNat, Nat.mod_eq_of_lt ha] at hread
  · rw [Memory.entryAt_above ha hm, Memory.entryAt_above ha hm']

/-- Settles O56. -/
theorem canonicalImagesAreEqual : Obligations.CanonicalImagesAreEqual := by
  intro m m' hm hm'
  exact ⟨fun h => Memory.eq_of_entryAt_eq hm hm' (Memory.entryAt_eq_of_read_eq hm hm' h),
    fun _ ha => Memory.entryAt_above ha hm⟩

end Sys2Proof.Machine
end

section
/-! The bits of an entry that a walk uses, 51:12 and 0 (R33, R34): a walk is the same over two images whose entries
agree on them. -/

namespace Sys2Proof.Machine

open Sys2Proof.Safety

/-- Bits 51:12 and 0 of an entry, the others cleared (R33). -/
def usedBits (e : Word) : Word :=
  e &&& 0xFFFFFFFFFF001#64

theorem isPresent_usedBits (e : Word) : isPresent (usedBits e) = isPresent e := by
  simp [isPresent, usedBits]

theorem nextBase_usedBits (e : Word) : nextBase (usedBits e) = nextBase e := by
  rw [nextBase, usedBits, BitVec.and_assoc]
  rfl

theorem isPresent_congr {e e' : Word} (h : usedBits e = usedBits e') : isPresent e = isPresent e' := by
  rw [← isPresent_usedBits e, h, isPresent_usedBits]

theorem nextBase_congr {e e' : Word} (h : usedBits e = usedBits e') : nextBase e = nextBase e' := by
  rw [← nextBase_usedBits e, h, nextBase_usedBits]

/-! ### Reads -/

theorem sameUpToIgnoredBits_cons {k k' : Nat} {v v' : Word} {m m' : Memory} :
    sameUpToIgnoredBits ((k, v) :: m) ((k', v') :: m') ↔
      k = k' ∧ usedBits v = usedBits v' ∧ sameUpToIgnoredBits m m' :=
  Iff.rfl

/-- The same keys, and entries that agree on the used bits. -/
theorem entryAt_usedBits_eq {img img' : Memory} (h : sameUpToIgnoredBits img img') (a : Nat) :
    (img.entryAt a).map usedBits = (img'.entryAt a).map usedBits := by
  induction img generalizing img' with
  | nil =>
    cases img' with
    | nil => rfl
    | cons p' m' => exact h.elim
  | cons p m ih =>
    cases img' with
    | nil => exact h.elim
    | cons p' m' =>
      obtain ⟨hk, hv, hm⟩ := sameUpToIgnoredBits_cons.mp h
      simp only [Memory.entryAt, hk]
      split
      · exact congrArg some hv
      · exact ih hm

/-- Two images that agree on the used bits of every entry: a read is absent from both, or finds entries that do. -/
theorem read_cases_of_same {img img' : Memory} (h : sameUpToIgnoredBits img img') (a : Word) :
    (img.read a = none ∧ img'.read a = none) ∨
    (∃ e e', img.read a = some e ∧ img'.read a = some e' ∧ usedBits e = usedBits e') := by
  have hmap : (img.read a).map usedBits = (img'.read a).map usedBits := entryAt_usedBits_eq h a.toNat
  cases hr : img.read a with
  | none =>
    rw [hr, Option.map_none, eq_comm, Option.map_eq_none_iff] at hmap
    exact Or.inl ⟨rfl, hmap⟩
  | some e =>
    rw [hr, Option.map_some, eq_comm, Option.map_eq_some_iff] at hmap
    obtain ⟨e', hr', he⟩ := hmap
    exact Or.inr ⟨e, e', rfl, hr', he.symm⟩

/-! ### Walks -/

/-- Two images that agree on the used bits come to the same at a level, or to entries that give the next level the same
base. -/
theorem visit_cases_of_same {img img' : Memory} (h : sameUpToIgnoredBits img img') (va : Word) (k : Level)
    (base : Word) :
    visit img va k base = visit img' va k base ∨
    (∃ a e e', visit img va k base = .entry a e ∧ visit img' va k base = .entry a e' ∧ nextBase e = nextBase e') := by
  unfold visit
  dsimp only
  split
  · exact Or.inl rfl
  · rcases read_cases_of_same h (entryAddress (entrySum base (index va k))) with
      ⟨hr, hr'⟩ | ⟨e, e', hr, hr', he⟩
    · exact Or.inl (by rw [hr, hr'])
    · simp only [hr, hr', isPresent_congr he]
      split
      · exact Or.inr ⟨_, e, e', rfl, rfl, nextBase_congr he⟩
      · exact Or.inl rfl

/-- What a level leaves to the rest of the walk depends on the entry's base alone. -/
theorem afterVisit_congr_of_same {img img' : Memory} (h : sameUpToIgnoredBits img img') (va : Word) (k : Level)
    (base : Word) (goOn : Word → Word → Walk) :
    afterVisit k base (visit img va k base) (fun a e => goOn a (nextBase e)) =
      afterVisit k base (visit img' va k base) (fun a e => goOn a (nextBase e)) := by
  rcases visit_cases_of_same h va k base with hv | ⟨a, e, e', hv, hv', hb⟩
  · rw [hv]
  · simp only [hv, hv', afterVisit, hb]

/-- The whole walk, its reads and registers included, is the same over two images that agree on the used bits. -/
theorem walk_congr_of_same {img img' : Memory} (h : sameUpToIgnoredBits img img') (va : Word) (n : Nat) (k : Level)
    (base : Word) : walk img va n k base = walk img' va n k base := by
  induction n generalizing k base with
  | zero =>
    exact afterVisit_congr_of_same h va k base fun a b => completeWalk [a] k base (physicalAddress b va)
  | succ n ih =>
    simp only [walk_more, ih]
    exact afterVisit_congr_of_same h va k base fun a b =>
      { walk img' va n (bumpLevel k) b with reads := a :: (walk img' va n (bumpLevel k) b).reads }

/-- Settles O25: EXTRACT reads no entry, and the walks of a TRANSLATE are the same. -/
theorem ignoredEntryBits : Obligations.IgnoredEntryBits := by
  intro img img' i h
  cases i with
  | extract va root => exact ⟨rfl, rfl⟩
  | translate va root =>
    have hw : fullWalk va root img = fullWalk va root img' := walk_congr_of_same h va 3 .pml4 root
    simp only [responseOf, readsOf, translateVa, reads, hw, and_self]

end Sys2Proof.Machine
end

section
/-! The words of the messages (R46, R47, R49, R54, R55, R58, R62): a word is put together from its fields and taken
apart again, in both directions. -/

namespace Sys2Proof

/-! ### A word and its fields -/

/-- A slice of one bit is that bit. -/
theorem extractLsb'_one_eq_ofBool {n : Nat} (w : BitVec n) (i : Nat) :
    w.extractLsb' i 1 = BitVec.ofBool (w.getLsbD i) := by
  apply BitVec.eq_of_getLsbD_eq
  intro j hj
  obtain rfl : j = 0 := by omega
  simp

/-- A flag in bit 64 above its payload is a whole 65-bit word, the layout of RSP and of MRSP (R54, R58). -/
theorem ofBool_append_data_eq (w : BitVec 65) : BitVec.ofBool (w.getLsbD 64) ++ w.extractLsb' 0 64 = w := by
  rw [← extractLsb'_one_eq_ofBool]
  exact BitVec.extractLsb'_append_extractLsb'

theorem getLsbD_ofBool_append (b : Bool) (d : Word) : (BitVec.ofBool b ++ d : BitVec 65).getLsbD 64 = b := by
  rw [BitVec.getLsbD_append, if_neg (Nat.lt_irrefl 64)]
  simp

/-- The three fields of format REQ are the whole word (R46). -/
theorem opBit_append_root_append_va_eq (w : ReqWord) :
    BitVec.ofBool (w.getLsbD 128) ++ decodeRoot w ++ decodeVa w = w := by
  have hop : BitVec.ofBool (w.getLsbD 128) ++ decodeRoot w = w.extractLsb' 64 65 := by
    rw [← extractLsb'_one_eq_ofBool]
    exact BitVec.extractLsb'_append_extractLsb'_eq_extractLsb' rfl
  rw [hop]
  exact BitVec.extractLsb'_append_extractLsb'

/-! ### Requests -/

/-- Settles O2: bit 128 of the word is the operation's, and each operand is the slice it was put in. -/
theorem encodeThenDecode : Obligations.EncodeThenDecode := by
  intro i _
  cases i with
  | extract va root =>
    have hop : (encode (.extract va root)).getLsbD 128 = false := opBit_append _ root va
    rw [decode_of_clear hop, encode, decodeVa_append, decodeRoot_append]
  | translate va root =>
    have hop : (encode (.translate va root)).getLsbD 128 = true := opBit_append _ root va
    rw [decode_of_set hop, encode, decodeVa_append, decodeRoot_append]

/-- The mask of bit 128 alone cuts that bit out (R47). -/
theorem getLsbD_and_opMask (w : ReqWord) :
    (w &&& 0x100000000000000000000000000000000#129).getLsbD 128 = w.getLsbD 128 := by
  simp

/-- Settles O1: each match fixes bit 128, which is all that the decoder looks at. -/
theorem opBitSelectsOperation : Obligations.OpBitSelectsOperation := by
  intro w
  constructor
  · intro h
    have hop : w.getLsbD 128 = false := by rw [← getLsbD_and_opMask, h]; decide
    exact decode_of_clear hop
  · intro h
    have hop : w.getLsbD 128 = true := by rw [← getLsbD_and_opMask, h]; decide
    exact decode_of_set hop

/-- Settles O3: encoding writes back the bit and the two halves that decoding took out. -/
theorem decodeThenEncode : Obligations.DecodeThenEncode := by
  intro w
  have hw := opBit_append_root_append_va_eq w
  cases hop : w.getLsbD 128 with
  | false =>
    rw [hop] at hw
    rw [decode_of_clear hop]
    exact hw
  | true =>
    rw [hop] at hw
    rw [decode_of_set hop]
    exact hw

/-- Settles O4: the four words, decoded. -/
theorem wordsOfTheSpecDecode : Obligations.WordsOfTheSpecDecode := by
  refine ⟨?_, ?_, ?_, ?_⟩
  · exact decode_of_clear (by decide)
  · exact decode_of_clear (by decide)
  · exact decode_of_set (by decide)
  · exact decode_of_set (by decide)

/-- A number of more than 129 bits is no request word (R46). -/
theorem decodeNumber_of_not_lt {w : Nat} (h : ¬ w < 2 ^ 129) : decodeNumber w = .error .tooWide :=
  if_neg (by simpa [isRequestNumber] using h)

theorem decodeTableWord_of_not_lt {nbits w : Nat} (hn : w < 2 ^ nbits) (h : ¬ w < 2 ^ 129) :
    decodeTableWord nbits w = none := by
  rw [decodeTableWord, tableWord_of_lt hn, decodeNumber_of_not_lt h]
  rfl

/-- Settles O5: the table's width cuts nothing off, and 129 bits are the only limit left. -/
theorem tableWordsDecode : Obligations.TableWordsDecode := by
  intro nbits w hn
  split
  · next h => exact decodeTableWord_of_lt hn h
  · next h => exact decodeTableWord_of_not_lt hn h

/-! ### Responses and read answers -/

theorem Rsp.toWord_fault (r : Rsp) : r.toWord.getLsbD 64 = r.fault :=
  getLsbD_ofBool_append r.fault r.data

theorem Rsp.toWord_data (r : Rsp) : r.toWord.extractLsb' 0 64 = r.data :=
  BitVec.extractLsb'_append_eq_right

theorem Rsp.ofWord_toWord (r : Rsp) : Rsp.ofWord r.toWord = r := by
  rw [Rsp.ofWord, Rsp.toWord_fault, Rsp.toWord_data]

theorem Rsp.toWord_ofWord (w : RspWord) : (Rsp.ofWord w).toWord = w :=
  ofBool_append_data_eq w

theorem Mrsp.toWord_present (m : Mrsp) : m.toWord.getLsbD 64 = m.present :=
  getLsbD_ofBool_append m.present m.data

theorem Mrsp.toWord_data (m : Mrsp) : m.toWord.extractLsb' 0 64 = m.data :=
  BitVec.extractLsb'_append_eq_right

theorem Mrsp.ofWord_toWord (m : Mrsp) : Mrsp.ofWord m.toWord = m := by
  rw [Mrsp.ofWord, Mrsp.toWord_present, Mrsp.toWord_data]

theorem Mrsp.toWord_ofWord (w : MrspWord) : (Mrsp.ofWord w).toWord = w :=
  ofBool_append_data_eq w

theorem Rsp.result_toRsp (r : Result) : r.toRsp.result = r := by
  cases r <;> rfl

/-- The payload of a response with its fault tag set is not looked at (R55). -/
theorem Rsp.result_of_fault {r : Rsp} (h : r.fault = true) : r.result = .fault :=
  if_pos h

/-- Settles O6: both formats are a flag above a payload, and the reader of a response looks at the flag first. -/
theorem messageWordsCarryTheirFields : Obligations.MessageWordsCarryTheirFields :=
  ⟨fun r => ⟨r.ofWord_toWord, r.toWord_fault, r.toWord_data⟩, Rsp.toWord_ofWord,
    fun m => ⟨m.ofWord_toWord, m.toWord_present, m.toWord_data⟩, Mrsp.toWord_ofWord,
    Rsp.result_toRsp, fun _ h => Rsp.result_of_fault h⟩

/-- A response that carries a result has no payload where its fault tag is set (R55). -/
theorem Result.toRsp_wellFormed (r : Result) : r.toRsp.wellFormed = true := by
  cases r <;> rfl

/-- Settles O23: every response carries a result, and the response of a Fault does not depend on anything. -/
theorem faultResponsesAreOneWord : Obligations.FaultResponsesAreOneWord := by
  refine ⟨fun img i => ?_, fun img va root => rfl, fun img va root h => ?_⟩
  · cases i with
    | extract va root => exact Result.toRsp_wellFormed _
    | translate va root => exact Result.toRsp_wellFormed _
  · rw [Machine.responseOf, h]
    decide

end Sys2Proof
end

section
/-! The operands as slices of their words (R50 to R53, R56, R63, R69): the indices, their packing and the entry address,
and that a request depends on bits 47:0 of its virtual address alone. -/

namespace Sys2Proof.Machine

open Sys2Proof.Safety

/-! ### Slices and masks -/

/-- A slice of a slice is a slice. -/
theorem extractLsb'_of_extractLsb' {n : Nat} (x : BitVec n) (start start' : Nat) {len len' : Nat}
    (h : start' + len' ≤ len) :
    (x.extractLsb' start len).extractLsb' start' len' = x.extractLsb' (start + start') len' := by
  apply BitVec.eq_of_getLsbD_eq
  intro i hi
  have hlen : start' + i < len := by omega
  simp only [BitVec.getLsbD_extractLsb', hi, hlen, decide_true, Bool.true_and, Nat.add_assoc]

/-- A slice, widened, is the word shifted down under a mask of the slice's width (R51, R56). -/
theorem setWidth_extractLsb'_eq_shift_and {mask : Word} {len : Nat}
    (hmask : ∀ i < 64, mask.getLsbD i = decide (i < len)) (x : Word) (start : Nat) :
    (x.extractLsb' start len).setWidth 64 = (x >>> start) &&& mask := by
  apply BitVec.eq_of_getLsbD_eq
  intro i hi
  simp only [BitVec.getLsbD_setWidth, BitVec.getLsbD_extractLsb', BitVec.getLsbD_and, BitVec.getLsbD_ushiftRight,
    hmask i hi, hi, decide_true, Bool.true_and, Bool.and_comm]

/-! ### The indices -/

theorem indexShift_eq (k : Level) : indexShift k = 48 - 9 * levelNumber k := by
  cases k <;> rfl

theorem index_eq_slice (va : Word) (k : Level) : index va k = va.extractLsb' (48 - 9 * levelNumber k) 9 := by
  rw [index, indexAt_eq_slice, indexShift_eq]

theorem index_eq_shift_and (va : Word) (k : Level) :
    (index va k).setWidth 64 = (va >>> (48 - 9 * levelNumber k)) &&& 0x1FF#64 := by
  rw [index_eq_slice]
  exact setWidth_extractLsb'_eq_shift_and (fun i hi => idxMask_bit hi) va _

/-- Every index is a slice of `va[47:12]`. -/
theorem index_eq_slice_of_slice (va : Word) (k : Level) :
    index va k = (va.extractLsb' 12 36).extractLsb' (36 - 9 * levelNumber k) 9 := by
  have hin : 36 - 9 * levelNumber k + 9 ≤ 36 := by cases k <;> decide
  have hstart : 12 + (36 - 9 * levelNumber k) = 48 - 9 * levelNumber k := by cases k <;> rfl
  rw [index_eq_slice, extractLsb'_of_extractLsb' va 12 _ hin, hstart]

theorem index_congr {va va' : Word} (h : va.extractLsb' 12 36 = va'.extractLsb' 12 36) (k : Level) :
    index va k = index va' k := by
  rw [index_eq_slice_of_slice, index_eq_slice_of_slice, h]

/-- Settles O7: an index formula is a slice, and each of the four slices lies inside `va[47:12]`. -/
theorem indicesAreTheirSlices : Obligations.IndicesAreTheirSlices := by
  intro va
  refine ⟨index_eq_shift_and va, fun k => ⟨index_eq_slice va k, Nat.le_of_lt_succ (index va k).isLt⟩, ?_, ?_⟩
  · exact ⟨index_eq_slice va .pml4, index_eq_slice va .pdpt, index_eq_slice va .pd, index_eq_slice va .pt⟩
  · exact fun va' h k => index_congr h k

/-! ### The packed indices -/

/-- The packing has nothing above its 36 bits. -/
theorem packIndices_top (t : Indices) : (packIndices t).extractLsb' 36 28 = 0#28 := by
  apply BitVec.eq_of_getLsbD_eq
  intro i hi
  simp [packIndices, BitVec.getLsbD_of_ge]

/-- Widening the concatenation to 64 bits does not move its slices. -/
theorem packIndices_slice (t : Indices) {start len : Nat} (h : start + len ≤ 64) :
    (packIndices t).extractLsb' start len = (t.i1 ++ t.i2 ++ t.i3 ++ t.i4).extractLsb' start len :=
  BitVec.extractLsb'_setWidth_of_le h

theorem packIndices_i4 (t : Indices) : (packIndices t).extractLsb' 0 9 = t.i4 := by
  rw [packIndices_slice t (by decide), BitVec.extractLsb'_append_eq_right]

theorem packIndices_i3 (t : Indices) : (packIndices t).extractLsb' 9 9 = t.i3 := by
  rw [packIndices_slice t (by decide), BitVec.extractLsb'_append_eq_of_le (by decide)]
  exact BitVec.extractLsb'_append_eq_right

theorem packIndices_i2 (t : Indices) : (packIndices t).extractLsb' 18 9 = t.i2 := by
  rw [packIndices_slice t (by decide), BitVec.extractLsb'_append_eq_of_le (by decide),
    BitVec.extractLsb'_append_eq_of_le (by decide)]
  exact BitVec.extractLsb'_append_eq_right

theorem packIndices_i1 (t : Indices) : (packIndices t).extractLsb' 27 9 = t.i1 := by
  rw [packIndices_slice t (by decide), BitVec.extractLsb'_append_eq_of_le (by decide),
    BitVec.extractLsb'_append_eq_of_le (by decide)]
  exact BitVec.extractLsb'_append_eq_left

/-- The four indices of an address are neighbours in it, so their packing is one slice (R56, R65). -/
theorem packIndices_extractIndices (va : Word) :
    packIndices (extractIndices va) = (va.extractLsb' 12 36).setWidth 64 := by
  have h12 : va.extractLsb' 39 9 ++ va.extractLsb' 30 9 = va.extractLsb' 30 18 :=
    BitVec.extractLsb'_append_extractLsb'_eq_extractLsb' rfl
  have h123 : va.extractLsb' 30 18 ++ va.extractLsb' 21 9 = va.extractLsb' 21 27 :=
    BitVec.extractLsb'_append_extractLsb'_eq_extractLsb' rfl
  have h1234 : va.extractLsb' 21 27 ++ va.extractLsb' 12 9 = va.extractLsb' 12 36 :=
    BitVec.extractLsb'_append_extractLsb'_eq_extractLsb' rfl
  simp only [packIndices, extractIndices, indexAt_eq_slice]
  rw [h12, h123, h1234]

theorem packMask_bit : ∀ i < 64, (0xFFFFFFFFF#64).getLsbD i = decide (i < 36) := by
  decide

/-- Settles O10: the fields of the packing by their positions, and the packing of an address as one slice of it. -/
theorem packedIndexLayout : Obligations.PackedIndexLayout := by
  refine ⟨fun t => ⟨packIndices_i1 t, packIndices_i2 t, packIndices_i3 t, packIndices_i4 t, packIndices_top t⟩,
    fun va => ⟨packIndices_extractIndices va, ?_⟩⟩
  rw [packIndices_extractIndices]
  exact setWidth_extractLsb'_eq_shift_and packMask_bit va 12

/-! ### The entry address -/

theorem carryOut_entrySum_iff (base : Word) (idx : BitVec 9) :
    carryOut (entrySum base idx) = true ↔ 2 ^ 64 ≤ base.toNat + idx.toNat * 8 := by
  rw [carryOut_eq, entrySum_toNat, decide_eq_true_iff]

/-- Without a carry no bit of the sum is lost (R69). -/
theorem entryAddress_toNat_of_noCarry {base : Word} {idx : BitVec 9} (h : carryOut (entrySum base idx) = false) :
    (entryAddress (entrySum base idx)).toNat = base.toNat + idx.toNat * 8 := by
  have hlt : base.toNat + idx.toNat * 8 < 2 ^ 64 := by
    rw [← Nat.not_le, ← carryOut_entrySum_iff, h]
    decide
  rw [entryAddress, BitVec.toNat_setWidth, entrySum_toNat, Nat.mod_eq_of_lt hlt]

/-- Settles O11: the 65-bit sum is the exact sum, and bit 64 of it is the carry. -/
theorem entryAddressIsExact : Obligations.EntryAddressIsExact := by
  intro base idx
  have hidx : idx.toNat * 8 ≤ 4088 := Nat.mul_le_mul_right 8 (Nat.le_of_lt_succ idx.isLt)
  exact ⟨rfl, scaledIndex_toNat idx, hidx, entrySum_toNat base idx, carryOut_entrySum_iff base idx,
    entryAddress_toNat_of_noCarry⟩

/-! ### Bits 63:48 of a virtual address -/

theorem pageOffset_eq_slice (va : Word) : pageOffset va = va.extractLsb' 0 12 := by
  have hmask : ∀ i < 12, offsetMask.getLsbD i = true := by decide
  apply BitVec.eq_of_getLsbD_eq
  intro i hi
  simp only [pageOffset, BitVec.getLsbD_setWidth, BitVec.getLsbD_and, BitVec.getLsbD_extractLsb', hmask i hi, hi,
    decide_true, Bool.and_true, Bool.true_and, Nat.zero_add]

/-- What a level comes to depends on the address's index alone. -/
theorem visit_congr_of_index {va va' : Word} {k : Level} (h : index va k = index va' k) (img : Memory) (base : Word) :
    visit img va k base = visit img va' k base := by
  rw [visit, visit, h]

/-- A walk depends on its address's indices and page offset alone. -/
theorem walk_congr_of_index_of_pageOffset {va va' : Word} (hidx : ∀ k, index va k = index va' k)
    (hoff : pageOffset va = pageOffset va') (img : Memory) (n : Nat) (k : Level) (base : Word) :
    walk img va n k base = walk img va' n k base := by
  have hpa : ∀ frame, physicalAddress frame va = physicalAddress frame va' := by
    intro frame
    rw [physicalAddress, physicalAddress, hoff]
  induction n generalizing k base with
  | zero => simp only [walk_last, visit_congr_of_index (hidx k), hpa]
  | succ n ih => simp only [walk_more, visit_congr_of_index (hidx k), ih]

/-- Settles O24: the indices, their packing and the page offset are slices of bits 47:0. -/
theorem upperAddressBitsIgnored : Obligations.UpperAddressBitsIgnored := by
  intro va va' root img h
  have hmid : va.extractLsb' 12 36 = va'.extractLsb' 12 36 := by
    have hslice := congrArg (fun low => low.extractLsb' 12 36) h
    simpa only [BitVec.extractLsb'_extractLsb'_of_le (show 12 + 36 ≤ 48 by decide)] using hslice
  have hoff : pageOffset va = pageOffset va' := by
    have hslice := congrArg (fun low => low.extractLsb' 0 12) h
    simpa only [BitVec.extractLsb'_extractLsb'_of_le (show 0 + 12 ≤ 48 by decide), ← pageOffset_eq_slice]
      using hslice
  have hwalk : fullWalk va root img = fullWalk va' root img :=
    walk_congr_of_index_of_pageOffset (index_congr hmid) hoff img 3 .pml4 root
  refine ⟨?_, ?_, ?_⟩
  · simp only [responseOf, packIndices_extractIndices, hmid]
  · simp only [responseOf, translateVa, hwalk]
  · simp only [readsOf, reads, hwalk]

/-! ### The text of the source's examples -/

/-- Settles O57: each text is that of a result or a tuple worked out first. -/
theorem sourceExamplesInText : Obligations.SourceExamplesInText := by
  refine ⟨?_, ?_, ?_, ?_⟩
  · have h : translateVa 0 0 [(0, 0x1001), (0x1000, 0x2001), (0x2000, 0x3001), (0x3000, 0x4001)] = .ok 0x4000 := by
      decide
    exact (congrArg resultText h).trans (by decide)
  · have h : translateVa 0 0 [(0, 0x1001), (0x2000, 0x3001), (0x3000, 0x4001)] = .fault := by decide
    exact congrArg resultText h
  · have h : extractIndices 0 = ⟨0, 0, 0, 0⟩ := by decide
    exact (congrArg indicesText h).trans (by decide)
  · have h : extractIndices 0x0000008000000000 = ⟨1, 0, 0, 0⟩ := by decide
    exact (congrArg indicesText h).trans (by decide)

end Sys2Proof.Machine
end

section
/-! The handshakes of a clock edge (R59): which micro-step an edge without reset is, what each micro-step does to the
four channels, and so what crosses each channel. -/

namespace Sys2Proof.Machine

open Sys2Proof.Safety

/-! ### The channels under each micro-step -/

@[simp] theorem acceptInstr_memChan (i : Instr) (s : State) : (s.acceptInstr i).memChan = s.memChan := by
  cases i <;> rfl

@[simp] theorem acceptInstr_reqChan (i : Instr) (s : State) : (s.acceptInstr i).reqChan = s.reqChan := by
  cases i <;> rfl

@[simp] theorem acceptInstr_taken (i : Instr) (s : State) : (s.acceptInstr i).taken = s.taken := by
  cases i <;> rfl

@[simp] theorem acceptInstr_readLog (i : Instr) (s : State) : (s.acceptInstr i).readLog = s.readLog := by
  cases i <;> rfl

/-- ACCEPT leaves the request channel empty, whatever was on it. -/
@[simp] theorem acceptStep_reqChan (s : State) : s.acceptStep.reqChan = none := by
  rcases acceptStep_cases s with ⟨w, _, h⟩ | ⟨hw, h⟩ <;> rw [h]
  · rw [acceptInstr_reqChan]
  · exact hw

@[simp] theorem acceptStep_memChan (s : State) : s.acceptStep.memChan = s.memChan := by
  rcases acceptStep_cases s with ⟨w, _, h⟩ | ⟨_, h⟩ <;> rw [h]
  rw [acceptInstr_memChan]

@[simp] theorem acceptStep_taken (s : State) : s.acceptStep.taken = s.taken := by
  rcases acceptStep_cases s with ⟨w, _, h⟩ | ⟨_, h⟩ <;> rw [h]
  rw [acceptInstr_taken]

@[simp] theorem acceptStep_readLog (s : State) : s.acceptStep.readLog = s.readLog := by
  rcases acceptStep_cases s with ⟨w, _, h⟩ | ⟨_, h⟩ <;> rw [h]
  rw [acceptInstr_readLog]

@[simp] theorem issueStep_reqChan (s : State) : s.issueStep.reqChan = s.reqChan := by
  rcases issueStep_cases s with ⟨_, h⟩ | ⟨a, _, _, h⟩ <;> rw [h] <;> rfl

@[simp] theorem issueStep_taken (s : State) : s.issueStep.taken = s.taken := by
  rcases issueStep_cases s with ⟨_, h⟩ | ⟨a, _, _, h⟩ <;> rw [h] <;> rfl

@[simp] theorem takeAnswer_memChan (m : Mrsp) (s : State) : (s.takeAnswer m).memChan = s.memChan := by
  rcases takeAnswer_cases m s with ⟨_, h⟩ | ⟨_, _, ⟨k, _, h⟩ | ⟨_, h⟩⟩ <;> rw [h] <;> rfl

@[simp] theorem takeAnswer_reqChan (m : Mrsp) (s : State) : (s.takeAnswer m).reqChan = s.reqChan := by
  rcases takeAnswer_cases m s with ⟨_, h⟩ | ⟨_, _, ⟨k, _, h⟩ | ⟨_, h⟩⟩ <;> rw [h] <;> rfl

@[simp] theorem takeAnswer_taken (m : Mrsp) (s : State) : (s.takeAnswer m).taken = s.taken := by
  rcases takeAnswer_cases m s with ⟨_, h⟩ | ⟨_, _, ⟨k, _, h⟩ | ⟨_, h⟩⟩ <;> rw [h] <;> rfl

@[simp] theorem takeAnswer_readLog (m : Mrsp) (s : State) : (s.takeAnswer m).readLog = s.readLog := by
  rcases takeAnswer_cases m s with ⟨_, h⟩ | ⟨_, _, ⟨k, _, h⟩ | ⟨_, h⟩⟩ <;> rw [h] <;> rfl

@[simp] theorem takeStep_reqChan (s : State) : s.takeStep.reqChan = s.reqChan := by
  unfold State.takeStep
  split
  · rw [takeAnswer_reqChan]
  · rfl

@[simp] theorem takeStep_taken (s : State) : s.takeStep.taken = s.taken := by
  unfold State.takeStep
  split
  · rw [takeAnswer_taken]
  · rfl

@[simp] theorem takeStep_readLog (s : State) : s.takeStep.readLog = s.readLog := by
  unfold State.takeStep
  split
  · rw [takeAnswer_readLog]
  · rfl

/-- TAKE leaves the memory channel empty exactly when no read request is on it. -/
theorem takeStep_memChan_eq_empty_iff (s : State) :
    s.takeStep.memChan = .empty ↔ ∀ a, s.memChan ≠ .request a := by
  cases hm : s.memChan with
  | empty => simp [takeStep_noAnswer, hm]
  | request a => simp [takeStep_noAnswer, hm]
  | answer m => simp [takeStep_answer hm]

/-! ### The pins of the memory port -/

theorem memReqValid_of_not_issue {s : State} (h : s.st ≠ .issue) : s.memReqValid = false := by
  simp [State.memReqValid, h]

theorem memRspValid_eq_true_iff (s : State) : s.memRspValid = true ↔ ∃ m, s.memChan = .answer m := by
  cases hm : s.memChan <;> simp [State.memRspValid, hm]

/-- In ISSUE `mem_req_valid` says whether the step sends a read, and `mem_req_addr` which one. -/
theorem issueStep_cases_of_issue {s : State} (h : s.st = .issue) :
    (s.memReqValid = false ∧ s.issueStep = s.raiseFault) ∨
    (∃ a, s.memReqValid = true ∧ s.memReqAddr = some a ∧ s.issueStep = { s.sendRead a with st := .wait }) := by
  cases hc : carryOut (entrySum s.baseQ (index s.vaQ s.lvl)) with
  | true => exact Or.inl ⟨by simp [State.memReqValid, hc], by simp [State.issueStep, hc]⟩
  | false =>
    have hv : s.memReqValid = true := by simp [State.memReqValid, h, hc]
    exact Or.inr ⟨_, hv, if_pos hv, by simp [State.issueStep, hc]⟩

/-! ### An edge without reset, by the value of `st` -/

section edge

variable {p : Pins} {s : State}

theorem clockEdge_of_idle (hp : p.rst = false) (h : s.st = .idle) : s.clockEdge p = s.acceptStep := by
  simp [State.clockEdge, hp, h]

theorem clockEdge_of_wait (hp : p.rst = false) (h : s.st = .wait) : s.clockEdge p = s.takeStep := by
  simp [State.clockEdge, hp, h]

theorem clockEdge_of_resp (hp : p.rst = false) (h : s.st = .resp) :
    s.clockEdge p = if p.rspReady then s.respond else s := by
  simp [State.clockEdge, hp, h]

/-- In ISSUE an edge holds a read that the agent is not ready for, sends it, or raises F-OVERFLOW. -/
theorem clockEdge_cases_of_issue (hp : p.rst = false) (h : s.st = .issue) :
    ((s.memReqValid && p.memReqReady) = false ∧ (s.clockEdge p = s ∨ s.clockEdge p = s.raiseFault)) ∨
    (∃ a, (s.memReqValid && p.memReqReady) = true ∧ s.memReqAddr = some a ∧
      s.clockEdge p = { s.sendRead a with st := .wait }) := by
  have he : s.clockEdge p = if s.memReqValid && !p.memReqReady then s else s.issueStep := by
    simp [State.clockEdge, hp, h]
  rcases issueStep_cases_of_issue h with ⟨hv, hi⟩ | ⟨a, hv, ha, hi⟩
  · exact Or.inl ⟨by simp [hv], Or.inr (by simp [he, hv, hi])⟩
  · cases hr : p.memReqReady with
    | false => exact Or.inl ⟨by simp, Or.inl (by simp [he, hv, hr])⟩
    | true => exact Or.inr ⟨a, by simp [hv], ha, by simp [he, hr, hi]⟩

/-! ### What crosses each channel -/

/-- The request channel: ACCEPT in IDLE is the one micro-step that takes from it. -/
theorem clockEdge_reqChan (hp : p.rst = false) :
    (s.clockEdge p).reqChan = if s.reqValid && s.reqReady p.rst then none else s.reqChan := by
  by_cases hst : s.st = .idle
  · rw [clockEdge_of_idle hp hst, acceptStep_reqChan]
    cases hw : s.reqChan <;> simp [State.reqValid, State.reqReady, hst, hp, hw]
  · have hready : s.reqReady p.rst = false := by simp [State.reqReady, hst]
    rw [hready, Bool.and_false, if_neg Bool.false_ne_true]
    cases hs : s.st with
    | idle => exact absurd hs hst
    | issue => rcases clockEdge_cases_of_issue hp hs with ⟨_, h | h⟩ | ⟨a, _, _, h⟩ <;> rw [h] <;> rfl
    | wait => rw [clockEdge_of_wait hp hs, takeStep_reqChan]
    | resp => rw [clockEdge_of_resp hp hs]; split <;> simp

/-- The response channel: RESPOND in RESP is the one micro-step that hands out a response. -/
theorem clockEdge_taken (hp : p.rst = false) :
    (s.clockEdge p).taken = if s.rspValid && p.rspReady then s.taken ++ s.rspPort.toList else s.taken := by
  by_cases hst : s.st = .resp
  · have hvalid : s.rspValid = true := by simp [State.rspValid, hst]
    rw [clockEdge_of_resp hp hst, hvalid, Bool.true_and, State.rspPort, rspChan_of_resp hst]
    split
    · rw [respond_of_resp hst]
      rfl
    · rfl
  · have hvalid : s.rspValid = false := by simp [State.rspValid, hst]
    rw [hvalid, Bool.false_and, if_neg Bool.false_ne_true]
    cases hs : s.st with
    | idle => rw [clockEdge_of_idle hp hs, acceptStep_taken]
    | issue => rcases clockEdge_cases_of_issue hp hs with ⟨_, h | h⟩ | ⟨a, _, _, h⟩ <;> rw [h] <;> rfl
    | wait => rw [clockEdge_of_wait hp hs, takeStep_taken]
    | resp => exact absurd hs hst

/-- The read requests: ISSUE is the one micro-step that sends one. -/
theorem clockEdge_readLog (hp : p.rst = false) :
    (s.clockEdge p).readLog =
      if s.memReqValid && p.memReqReady then s.readLog ++ s.memReqAddr.toList else s.readLog := by
  by_cases hst : s.st = .issue
  · rcases clockEdge_cases_of_issue hp hst with ⟨hc, h | h⟩ | ⟨a, hc, ha, h⟩
    · rw [hc, h]; rfl
    · rw [hc, h]; rfl
    · rw [hc, ha, h]; rfl
  · rw [memReqValid_of_not_issue hst, Bool.false_and, if_neg Bool.false_ne_true]
    cases hs : s.st with
    | idle => rw [clockEdge_of_idle hp hs, acceptStep_readLog]
    | issue => exact absurd hs hst
    | wait => rw [clockEdge_of_wait hp hs, takeStep_readLog]
    | resp => rw [clockEdge_of_resp hp hs]; split <;> simp

/-- The memory channel: in WAIT an answer is taken off it, in ISSUE a read request is put on it; otherwise it is empty
and stays so (R24 c). -/
theorem clockEdge_memChan_eq_empty_iff (hp : p.rst = false) (hco : Coherent s) :
    (s.clockEdge p).memChan = .empty ↔
      (s.memRspValid && s.memRspReady) = true ∨ s.memChan = .empty ∧ (s.memReqValid && p.memReqReady) = false := by
  by_cases hst : s.st = .wait
  · have hne : s.memChan ≠ .empty := by
      intro hm
      have hflight := hco.inFlight
      simp only [inFlightOk, hm] at hflight
      exact hflight hst
    have hready : s.memRspReady = true := by simp [State.memRspReady, hst]
    rw [clockEdge_of_wait hp hst, takeStep_memChan_eq_empty_iff, hready, Bool.and_true, memRspValid_eq_true_iff]
    cases hm : s.memChan with
    | empty => exact absurd hm hne
    | request a => simp
    | answer m => simp
  · have hm : s.memChan = .empty := memChan_empty_of_coherent hco hst
    have hready : s.memRspReady = false := by simp [State.memRspReady, hst]
    have hval : s.st ≠ .issue → (s.memReqValid && p.memReqReady) = false := fun h => by
      rw [memReqValid_of_not_issue h, Bool.false_and]
    simp only [hready, hm, Bool.and_false, Bool.false_eq_true, false_or, true_and]
    cases hs : s.st with
    | idle => simp [clockEdge_of_idle hp hs, hm, hval, hs]
    | issue => rcases clockEdge_cases_of_issue hp hs with ⟨hc, h | h⟩ | ⟨a, hc, _, h⟩ <;> simp [h, hc, hm]
    | wait => exact absurd hs hst
    | resp =>
      have hkeep : (s.clockEdge p).memChan = s.memChan := by
        rw [clockEdge_of_resp hp hs]
        split <;> simp
      simp [hkeep, hm, hval, hs]

end edge

/-- Settles O39: one rule a channel. -/
theorem handshakesTransfer : Obligations.HandshakesTransfer := by
  intro s t p hco hp h
  obtain rfl := Host.Outcome.next.inj h
  exact ⟨clockEdge_reqChan hp, clockEdge_taken hp, clockEdge_readLog hp, clockEdge_memChan_eq_empty_iff hp hco⟩

end Sys2Proof.Machine
end

section
/-! The index extractor (R63 to R66): the laws of `extractIndices`, the next state of an EXTRACT, and the walk's use of
the four indices. -/

namespace Sys2Proof.Machine

open Sys2Proof.Safety

/-! ### The tuple -/

/-- R66: the extractor and the walk cut out the same indices. -/
theorem index_eq_component (va : Word) (k : Level) : index va k = component (extractIndices va) k := by
  cases k <;> rfl

theorem extractIndices_congr {va va' : Word} (h : ∀ k, index va k = index va' k) :
    extractIndices va = extractIndices va' :=
  (Indices.mk.injEq ..).mpr ⟨h .pml4, h .pdpt, h .pd, h .pt⟩

/-- A mask that keeps bits 47:12 keeps the slice the indices come from. -/
theorem extractLsb'_and_indexBits (va : Word) :
    (va &&& 0x0000FFFFFFFFF000#64).extractLsb' 12 36 = va.extractLsb' 12 36 := by
  have hmask : ∀ i < 36, (0x0000FFFFFFFFF000#64).getLsbD (12 + i) = true := by decide
  apply BitVec.eq_of_getLsbD_eq
  intro i hi
  simp only [BitVec.getLsbD_extractLsb', BitVec.getLsbD_and, hmask i hi, Bool.and_true]

/-- R65 (b): the tuple depends on bits 47:12 alone. -/
theorem extractIndices_and_indexBits (va : Word) :
    extractIndices (va &&& 0x0000FFFFFFFFF000#64) = extractIndices va :=
  extractIndices_congr (index_congr (extractLsb'_and_indexBits va))

/-! ### Reassembly and packing -/

/-- Shifting down, masking and shifting back up is masking in place. -/
theorem ushiftRight_and_shiftLeft (x mask : Word) (n : Nat) : ((x >>> n) &&& mask) <<< n = x &&& (mask <<< n) := by
  apply BitVec.eq_of_getLsbD_eq
  intro i hi
  by_cases hn : i < n
  · simp [hn]
  · have hback : n + (i - n) = i := by omega
    simp [hi, hn, hback]

/-- An index shifted back to its place is its field of the address. -/
theorem index_shiftLeft (va : Word) (k : Level) :
    (index va k).setWidth 64 <<< (48 - 9 * levelNumber k) = va &&& (idxMask <<< (48 - 9 * levelNumber k)) := by
  rw [index_eq_shift_and]
  exact ushiftRight_and_shiftLeft va idxMask _

/-- R65 (c): the four fields and the page offset make up bits 47:0. -/
theorem indices_reassemble (va : Word) :
    ((index va .pml4).setWidth 64 <<< 39) ||| ((index va .pdpt).setWidth 64 <<< 30) |||
      ((index va .pd).setWidth 64 <<< 21) ||| ((index va .pt).setWidth 64 <<< 12) ||| (va &&& 0xFFF#64) =
      va &&& 0x0000FFFFFFFFFFFF#64 := by
  have h1 : (index va .pml4).setWidth 64 <<< 39 = va &&& (idxMask <<< 39) := index_shiftLeft va .pml4
  have h2 : (index va .pdpt).setWidth 64 <<< 30 = va &&& (idxMask <<< 30) := index_shiftLeft va .pdpt
  have h3 : (index va .pd).setWidth 64 <<< 21 = va &&& (idxMask <<< 21) := index_shiftLeft va .pd
  have h4 : (index va .pt).setWidth 64 <<< 12 = va &&& (idxMask <<< 12) := index_shiftLeft va .pt
  have hmasks : idxMask <<< 39 ||| idxMask <<< 30 ||| idxMask <<< 21 ||| idxMask <<< 12 ||| 0xFFF#64 =
      0x0000FFFFFFFFFFFF#64 := by decide
  rw [h1, h2, h3, h4, ← hmasks]
  simp only [BitVec.and_or_distrib_left]

/-- R65 (d): the concatenation is what the packing widens, so the packing's low 36 bits give it back. -/
theorem extractIndices_append (va : Word) :
    (extractIndices va).i1 ++ (extractIndices va).i2 ++ (extractIndices va).i3 ++ (extractIndices va).i4 =
      va.extractLsb' 12 36 := by
  have hleft := packIndices_slice (extractIndices va) (start := 0) (len := 36) (by decide)
  rw [packIndices_extractIndices, BitVec.extractLsb'_setWidth_of_le (by decide), BitVec.extractLsb'_eq_self] at hleft
  rw [hleft]
  exact BitVec.extractLsb'_eq_self.symm

/-- Settles O8: each law of one address by its lemma; the source's two checks are worked out. -/
theorem extractorLaws : Obligations.ExtractorLaws := by
  refine ⟨?_, by decide, by decide⟩
  rintro va _ rfl
  have hrange : ∀ i : BitVec 9, i.toNat ≤ 511 := fun i => Nat.le_of_lt_succ i.isLt
  exact ⟨⟨hrange _, hrange _, hrange _, hrange _⟩, extractIndices_and_indexBits va, indices_reassemble va,
    extractIndices_append va⟩

/-! ### EXTRACT -/

/-- Settles O13: the request is accepted with its result and the response taken at once; `st` is IDLE before and
after. -/
theorem extractCompletes : Obligations.ExtractCompletes := by
  intro s va root h
  rw [exec_of_idle _ h, State.acceptInstr, runHeld_acceptExtract, State.acceptExtract, State.respondOk,
    packIndices_extractIndices, h]

/-! ### The reads of a walk -/

/-- A present entry at a reached level leads to the next one (R68, R73). -/
theorem reaches_bumpLevel {va root : Word} {img : Memory} {k : Level} {base a e : Word}
    (here : Reaches va root img k base) (ha : entryNumber va k base = a.toNat) (hr : img.read a = some e)
    (hp : isPresent e = true) (hk : nextLevel k = some (bumpLevel k)) :
    Reaches va root img (bumpLevel k) (nextBase e) := by
  refine .down here ?_ ?_ hp hk
  · rw [ha]
    exact a.isLt
  · rw [ha]
    exact hr

/-- What a walk reads: nothing, its first entry address alone, or that address and what the walk from the next level
reads (R75, R76). -/
theorem walk_reads_cases (img : Memory) (va : Word) (n : Nat) (k : Level) (base : Word) :
    (walk img va n k base).reads = [] ∨
    (∃ a, entryNumber va k base = a.toNat ∧
      ((walk img va n k base).reads = [a] ∨
       (∃ m e, n = m + 1 ∧ img.read a = some e ∧ isPresent e = true ∧
        (walk img va n k base).reads = a :: (walk img va m (bumpLevel k) (nextBase e)).reads))) := by
  rcases visit_cases img va k base with ⟨_, hv⟩ | ⟨a, ha, _, _, ⟨_, hv⟩ | ⟨e, _, _, hv⟩ | ⟨e, hr, hp, hv⟩⟩
  · left
    cases n <;> simp only [walk_last, walk_more, hv] <;> rfl
  · refine Or.inr ⟨a, ha, Or.inl ?_⟩
    cases n <;> simp only [walk_last, walk_more, hv] <;> rfl
  · refine Or.inr ⟨a, ha, Or.inl ?_⟩
    cases n <;> simp only [walk_last, walk_more, hv] <;> rfl
  · refine Or.inr ⟨a, ha, ?_⟩
    cases n with
    | zero => exact Or.inl (by simp only [walk_last, hv]; rfl)
    | succ m => exact Or.inr ⟨m, e, rfl, hr, hp, by simp only [walk_more, hv]; rfl⟩

/-- Each address a walk reads is the entry address of the level at its place, counted from where the walk begins, by
induction on the place. -/
theorem exists_reaches_of_walk_reads_getElem? {va root : Word} {img : Memory} {i n : Nat} {k : Level} {base a : Word}
    (hn : levelsAfter k = n) (here : Reaches va root img k base) (h : (walk img va n k base).reads[i]? = some a) :
    ∃ k' base', Reaches va root img k' base' ∧ levelNumber k' = levelNumber k + i ∧
      entryNumber va k' base' = a.toNat := by
  induction i generalizing n k base with
  | zero =>
    refine ⟨k, base, here, rfl, ?_⟩
    rcases walk_reads_cases img va n k base with hl | ⟨b, hb, hl | ⟨_, _, _, _, _, hl⟩⟩ <;> rw [hl] at h <;> cases h
    · exact hb
    · exact hb
  | succ i ih =>
    rcases walk_reads_cases img va n k base with hl | ⟨b, hb, hl | ⟨m, e, rfl, hr, hp, hl⟩⟩ <;> rw [hl] at h
    · cases h
    · cases h
    · rcases nextLevel_cases k with ⟨_, _, hlast⟩ | ⟨hk, hmore⟩
      · omega
      · have hnumber := levelNumber_nextLevel hk
        obtain ⟨k', base', hreach, hk', haddr⟩ := ih (by omega) (reaches_bumpLevel here hb hr hp hk) h
        exact ⟨k', base', hreach, by omega, haddr⟩

/-! ### The walk's indices -/

/-- The exact entry address, in terms of the extractor (R66, R69). -/
theorem entryNumber_eq_component (va : Word) (k : Level) (base : Word) :
    entryNumber va k base = base.toNat + (component (extractIndices va) k).toNat * 8 := by
  rw [entryNumber, index_eq_component]

theorem ptwStep_of_issue {s : State} (h : s.st = .issue) : s.ptwStep = s.issueStep := by
  simp only [State.ptwStep, h]

/-- The read that ISSUE puts on the memory channel is the entry address of the level held (R79). -/
theorem entryNumber_of_issueStep_request {s : State} {a : Word} (hst : s.issueStep.st = .wait)
    (hm : s.issueStep.memChan = .request a) : entryNumber s.vaQ s.lvl s.baseQ = a.toNat := by
  rcases issueStep_cases s with ⟨_, h⟩ | ⟨b, hb, _, h⟩ <;> rw [h] at hst hm
  · cases hst
  · cases hm
    exact hb

/-- Settles O9: the step of a PTW in ISSUE is ISSUE, and the reads of a request are those of its walk from level 1. -/
theorem walkUsesTheExtractor : Obligations.WalkUsesTheExtractor := by
  refine ⟨index_eq_component, ?_, ?_⟩
  · intro s t a hmove hst h hwait hm
    rw [step_of_nextMove hmove] at h
    obtain rfl : s.dropMove.ptwStep = t := Host.Outcome.next.inj h
    rw [ptwStep_of_issue (s.dropMove_st.trans hst)] at hwait hm
    rw [← entryNumber_of_issueStep_request hwait hm]
    exact entryNumber_eq_component s.vaQ s.lvl s.baseQ
  · intro va root img n a h
    obtain ⟨k, base, hreach, hk, haddr⟩ := exists_reaches_of_walk_reads_getElem? rfl .start h
    refine ⟨k, base, hreach, hk.trans (Nat.add_comm 1 n), ?_⟩
    rw [← haddr, entryNumber_eq_component]

end Sys2Proof.Machine
end

section
/-! The reconstructor (R73, R74): a base and a page offset share no bit, so their sum is their concatenation. -/

namespace Sys2Proof.Machine

theorem baseMask_bit : ∀ i < 64, baseMask.getLsbD i = decide (12 ≤ i ∧ i < 52) := by
  decide

theorem offsetMask_bit : ∀ i < 64, offsetMask.getLsbD i = decide (i < 12) := by
  decide

/-- Masking keeps the slice `e[51:12]` where it is (R73). -/
theorem nextBase_eq_append (e : Word) : nextBase e = (0#12 ++ e.extractLsb' 12 40 ++ 0#12 : BitVec 64) := by
  apply BitVec.eq_of_getLsbD_eq
  intro i hi
  simp only [nextBase, BitVec.getLsbD_and, baseMask_bit i hi, BitVec.getLsbD_append, BitVec.getLsbD_extractLsb',
    BitVec.getLsbD_zero]
  by_cases hlow : i < 12
  · simp [hlow]
  · by_cases hmid : i < 52
    · have hback : 12 + (i - 12) = i := by omega
      have hin : i - 12 < 40 := by omega
      simp [hlow, hmid, hin, hback, Nat.not_lt.mp hlow]
    · have hout : ¬ i - 12 < 40 := by omega
      simp [hlow, hmid, hout]

/-- The page offset in a 64-bit word is the address under its mask (R52). -/
theorem pageOffset_setWidth (va : Word) : (pageOffset va).setWidth 64 = va &&& offsetMask := by
  rw [pageOffset_eq_slice]
  simpa using setWidth_extractLsb'_eq_shift_and offsetMask_bit va 0

/-- A base and a page offset have no bit in common. -/
theorem nextBase_and_offset (e va : Word) : nextBase e &&& (va &&& offsetMask) = 0#64 := by
  have hmasks : baseMask &&& offsetMask = 0#64 := by decide
  have hswap : e &&& baseMask &&& (va &&& offsetMask) = e &&& va &&& (baseMask &&& offsetMask) := by ac_rfl
  rw [nextBase, hswap, hmasks, BitVec.and_zero]

/-- The reconstructor's addition has no carry (R74). -/
theorem physicalAddress_eq_or (e va : Word) :
    physicalAddress (nextBase e) va = nextBase e ||| (va &&& offsetMask) := by
  rw [physicalAddress, pageOffset_setWidth, BitVec.add_eq_or_of_and_eq_zero _ _ (nextBase_and_offset e va)]

theorem physicalAddress_eq_append (e va : Word) :
    physicalAddress (nextBase e) va = (0#12 ++ e.extractLsb' 12 40 ++ va.extractLsb' 0 12 : BitVec 64) := by
  rw [physicalAddress_eq_or, nextBase_eq_append]
  apply BitVec.eq_of_getLsbD_eq
  intro i hi
  simp only [BitVec.getLsbD_or, BitVec.getLsbD_and, offsetMask_bit i hi, BitVec.getLsbD_append,
    BitVec.getLsbD_extractLsb' (x := va), BitVec.getLsbD_zero]
  by_cases hlow : i < 12 <;> simp [hlow]

/-- Settles O12: the mask is a slice in place, and the sum of a base and an offset is their concatenation. -/
theorem reconstructorConcatenates : Obligations.ReconstructorConcatenates :=
  fun e va => ⟨nextBase_eq_append e, physicalAddress_eq_or e va, physicalAddress_eq_append e va⟩

end Sys2Proof.Machine
end

section
/-! The table walk against the levels it reaches (R67 to R76, R84, R89): the end of every walk, its result, cause and
reads, and the whole next state of a TRANSLATE. -/

namespace Sys2Proof

/-- The cause of R86 that one visit comes to. -/
def Visit.cause : Visit → Option Cause
  | .overflow => some .overflow
  | .absent _ => some .absent
  | .notPresent _ => some .notPresent
  | .entry _ _ => none

/-- The reads one visit makes (R76). -/
def Visit.reads : Visit → List Word
  | .overflow => []
  | .absent a => [a]
  | .notPresent a => [a]
  | .entry a _ => [a]

/-- The absent answers one visit gets (R31). -/
def Visit.draws : Visit → Nat
  | .absent _ => 1
  | _ => 0

/-- What a read of `a` comes to (R71 to R73). -/
def Visit.ofRead (a : Word) : Option Word → Visit
  | none => .absent a
  | some e => if Machine.isPresent e then .entry a e else .notPresent a

/-- The same walk with these reads before its own. -/
def Walk.after (before : List Word) (w : Walk) : Walk :=
  { w with reads := before ++ w.reads }

theorem Walk.after_after (before between : List Word) (w : Walk) :
    (w.after between).after before = w.after (before ++ between) := by
  simp only [Walk.after, List.append_assoc]

namespace Machine

open Sys2Proof.Safety

/-! ### The cause a level has -/

/-- A number of 2^64 or more is no address: nothing is read (R70). -/
theorem visit_of_overflow {img : Memory} {va : Word} {k : Level} {base : Word}
    (h : 2 ^ 64 ≤ entryNumber va k base) : visit img va k base = .overflow := by
  rcases visit_cases img va k base with ⟨_, hv⟩ | ⟨a, ha, _⟩
  · exact hv
  · exact absurd a.isLt (by omega)

/-- An entry address is a number of 2^64 or more, or a word. -/
theorem entryNumber_overflow_or_word (va : Word) (k : Level) (base : Word) :
    2 ^ 64 ≤ entryNumber va k base ∨ ∃ a : Word, entryNumber va k base = a.toNat :=
  (Nat.lt_or_ge (entryNumber va k base) (2 ^ 64)).symm.imp_right fun h =>
    ⟨BitVec.ofNat 64 (entryNumber va k base), (Nat.mod_eq_of_lt h).symm⟩

/-- At an address the visit is what the read there comes to. -/
theorem visit_eq_ofRead {img : Memory} {va : Word} {k : Level} {base a : Word}
    (ha : entryNumber va k base = a.toNat) : visit img va k base = .ofRead a (img.read a) := by
  rcases visit_of_address (img := img) ha with ⟨hr, hv⟩ | ⟨e, hr, hp, hv⟩ | ⟨e, hr, hp, hv⟩ <;> rw [hv, hr]
  · rfl
  · rw [Visit.ofRead, hp]
    rfl
  · rw [Visit.ofRead, hp]
    rfl

theorem visit_of_entry {img : Memory} {va : Word} {k : Level} {base a e : Word}
    (ha : entryNumber va k base = a.toNat) (hr : img.read a = some e) (hp : isPresent e = true) :
    visit img va k base = .entry a e := by
  rw [visit_eq_ofRead ha, hr, Visit.ofRead, if_pos hp]

theorem of_visit_eq_entry {img : Memory} {va : Word} {k : Level} {base a e : Word}
    (h : visit img va k base = .entry a e) :
    entryNumber va k base = a.toNat ∧ img.read a = some e ∧ isPresent e = true := by
  rcases visit_cases img va k base with ⟨_, hv⟩ | ⟨b, hb, _, _, ⟨_, hv⟩ | ⟨e', _, _, hv⟩ | ⟨e', hr, hp, hv⟩⟩ <;>
    cases hv.symm.trans h
  exact ⟨hb, hr, hp⟩

/-- A level has a cause exactly where its visit comes to it. -/
theorem causeHolds_iff_visit_cause (va : Word) (img : Memory) (k : Level) (base : Word) (c : Cause) :
    causeHolds va img k base c ↔ (visit img va k base).cause = some c := by
  rcases entryNumber_overflow_or_word va k base with hge | ⟨a, ha⟩
  · rw [visit_of_overflow hge]
    cases c <;> simp [causeHolds, Visit.cause, hge, Nat.not_lt.mpr hge, -Nat.reducePow]
  · have hge : ¬ 2 ^ 64 ≤ a.toNat := Nat.not_le.mpr a.isLt
    rw [visit_eq_ofRead ha, Memory.read]
    cases hr : img.entryAt a.toNat with
    | none => cases c <;> simp [causeHolds, Visit.ofRead, Visit.cause, ha, hge, a.isLt, hr, -Nat.reducePow]
    | some e =>
      rw [Visit.ofRead, isPresent]
      cases hp : e.getLsbD 0 <;> cases c <;>
        simp [causeHolds, Visit.cause, ha, hge, a.isLt, hr, hp, -Nat.reducePow,
          -BitVec.getLsbD_eq_getElem]

/-! ### The walk from a level that is reached -/

/-- A visit with a cause ends the walk, whatever would have come after it (R75). -/
theorem afterVisit_of_cause {v : Visit} {c : Cause} (h : v.cause = some c) (k : Level) (base : Word)
    (goOn : Word → Word → Walk) : afterVisit k base v goOn = stopWalk c v.reads k base v.draws := by
  cases v <;> cases h <;> rfl

theorem walk_of_cause {img : Memory} {va : Word} {k : Level} {base : Word} {c : Cause}
    (h : (visit img va k base).cause = some c) (n : Nat) :
    walk img va n k base = stopWalk c (visit img va k base).reads k base (visit img va k base).draws := by
  cases n with
  | zero => rw [walk_last, afterVisit_of_cause h]
  | succ n => rw [walk_more, afterVisit_of_cause h]

/-- A present entry takes the walk to the next level, with one read made (R73). -/
theorem walk_of_entry {img : Memory} {va : Word} {n : Nat} {k : Level} {base a e : Word}
    (h : visit img va k base = .entry a e) :
    walk img va (n + 1) k base = (walk img va n (bumpLevel k) (nextBase e)).after [a] := by
  rw [walk_more, h]
  rfl

/-- The walk of a request from any level it reaches: one read for every level before (R76). -/
theorem fullWalk_of_reaches {va root : Word} {img : Memory} {k : Level} {base : Word}
    (here : Reaches va root img k base) :
    ∃ before, before.length + 1 = levelNumber k ∧
      fullWalk va root img = (walk img va (levelsAfter k) k base).after before := by
  induction here with
  | start => exact ⟨[], rfl, rfl⟩
  | @down k k' base e _ fits found present next ih =>
    obtain ⟨before, hlen, hw⟩ := ih
    obtain ⟨a, ha⟩ := (entryNumber_overflow_or_word va k base).resolve_left (Nat.not_le.mpr fits)
    have hv : visit img va k base = .entry a e := visit_of_entry ha (by rw [← found, ha, Memory.read]) present
    refine ⟨before ++ [a], ?_, ?_⟩
    · rw [levelNumber_nextLevel next, ← hlen, List.length_append]
      rfl
    · rcases nextLevel_cases k with ⟨_, hlast, _⟩ | ⟨hbump, hafter⟩
      · simp [next] at hlast
      · obtain rfl : k' = bumpLevel k := Option.some.inj (next.symm.trans hbump)
        rw [hw, hafter, walk_of_entry hv, Walk.after_after]
        rfl

/-- A cause at a level that is reached ends the walk of the request there (R75). -/
theorem fullWalk_of_cause {va root : Word} {img : Memory} {k : Level} {base : Word} {c : Cause}
    (here : Reaches va root img k base) (h : (visit img va k base).cause = some c) :
    ∃ before draws, before.length + 1 = levelNumber k ∧
      fullWalk va root img = stopWalk c (before ++ (visit img va k base).reads) k base draws := by
  obtain ⟨before, hlen, hw⟩ := fullWalk_of_reaches here
  rw [walk_of_cause h] at hw
  exact ⟨before, _, hlen, hw⟩

/-- A present entry at level 4 completes the walk of the request (R74). -/
theorem fullWalk_of_lastEntry {va root : Word} {img : Memory} {base a e : Word}
    (here : Reaches va root img .pt base) (h : visit img va .pt base = .entry a e) :
    ∃ before, before.length = 3 ∧
      fullWalk va root img = completeWalk (before ++ [a]) .pt base (physicalAddress (nextBase e) va) := by
  obtain ⟨before, hlen, hw⟩ := fullWalk_of_reaches here
  rw [levelsAfter, walk_last, h] at hw
  exact ⟨before, Nat.succ.inj hlen, hw⟩

/-- From any level that is reached the walk comes to a cause or to a present entry at level 4, by induction on the
levels left. -/
theorem cause_or_lastEntry_of_reaches {va root : Word} {img : Memory} {n : Nat} {k : Level} {base : Word}
    (hn : levelsAfter k = n) (here : Reaches va root img k base) :
    (∃ k' base' c, Reaches va root img k' base' ∧ (visit img va k' base').cause = some c) ∨
    (∃ base' a e, Reaches va root img .pt base' ∧ visit img va .pt base' = .entry a e) := by
  induction n generalizing k base with
  | zero =>
    obtain ⟨rfl, _, _⟩ := (nextLevel_cases k).resolve_right (by omega)
    cases hv : visit img va .pt base with
    | entry a e => exact Or.inr ⟨base, a, e, here, hv⟩
    | _ => exact Or.inl ⟨.pt, base, _, here, by rw [hv]; rfl⟩
  | succ n ih =>
    obtain ⟨hbump, hafter⟩ := (nextLevel_cases k).resolve_left (by omega)
    cases hv : visit img va k base with
    | entry a e =>
      obtain ⟨ha, hr, hp⟩ := of_visit_eq_entry hv
      exact ih (by omega) (reaches_bumpLevel here ha hr hp hbump)
    | _ => exact Or.inl ⟨k, base, _, here, by rw [hv]; rfl⟩

/-- Every walk ends with a cause at a level it reaches, or with a present entry at level 4 (R67, R68, R75). -/
theorem cause_or_lastEntry (va root : Word) (img : Memory) :
    (∃ k base c, Reaches va root img k base ∧ (visit img va k base).cause = some c) ∨
    (∃ base a e, Reaches va root img .pt base ∧ visit img va .pt base = .entry a e) :=
  cause_or_lastEntry_of_reaches rfl .start

/-! ### Success -/

/-- A success comes from a present entry at level 4, and its walk made four reads. -/
theorem lastEntry_of_ok {va root pa : Word} {img : Memory} (h : translateVa va root img = .ok pa) :
    ∃ base a e, Reaches va root img .pt base ∧ visit img va .pt base = .entry a e ∧
      pa = physicalAddress (nextBase e) va ∧ (reads va root img).length = 4 := by
  rcases cause_or_lastEntry va root img with ⟨k, base, c, here, hc⟩ | ⟨base, a, e, here, hv⟩
  · obtain ⟨before, draws, _, hw⟩ := fullWalk_of_cause here hc
    rw [translateVa, hw] at h
    cases h
  · obtain ⟨before, hlen, hw⟩ := fullWalk_of_lastEntry here hv
    rw [translateVa, hw] at h
    cases h
    refine ⟨base, a, e, here, hv, rfl, ?_⟩
    rw [reads, hw, completeWalk, List.length_append, hlen]
    rfl

/-- The reconstructor's sum as R74 writes it. -/
theorem physicalAddress_eq_add (e va : Word) :
    physicalAddress (nextBase e) va = (e &&& 0xFFFFFFFFFF000#64) + (va &&& 0xFFF#64) := by
  rw [physicalAddress, pageOffset_setWidth]
  rfl

/-- Settles O16: the walk that reaches level 4 and finds a present entry there is the one that completes. -/
theorem translateOkIff : Obligations.TranslateOkIff := by
  intro va root pa img
  constructor
  · intro h
    obtain ⟨base, a, e, here, hv, hpa, _⟩ := lastEntry_of_ok h
    obtain ⟨ha, hr, hp⟩ := of_visit_eq_entry hv
    refine ⟨base, e, here, ?_, ?_, hp, hpa.trans (physicalAddress_eq_add e va)⟩
    · rw [ha]
      exact a.isLt
    · rw [ha]
      exact hr
  · rintro ⟨base, e, here, hlt, hr, hp, rfl⟩
    obtain ⟨a, ha⟩ := (entryNumber_overflow_or_word va .pt base).resolve_left (Nat.not_le.mpr hlt)
    obtain ⟨before, _, hw⟩ := fullWalk_of_lastEntry here (visit_of_entry ha (by rw [← hr, ha, Memory.read]) hp)
    rw [translateVa, hw, ← physicalAddress_eq_add]
    rfl

/-- Settles O22: the fields of the reconstructor's concatenation. -/
theorem resultBounds : Obligations.ResultBounds := by
  intro va root pa img h
  obtain ⟨base, a, e, here, hv, rfl, _⟩ := lastEntry_of_ok h
  obtain ⟨ha, hr, _⟩ := of_visit_eq_entry hv
  have htop : (physicalAddress (nextBase e) va).extractLsb' 52 12 = 0#12 := by
    rw [physicalAddress_eq_append, BitVec.append_assoc]
    exact BitVec.extractLsb'_append_eq_left
  have hmid : (physicalAddress (nextBase e) va).extractLsb' 12 40 = e.extractLsb' 12 40 := by
    rw [physicalAddress_eq_append, BitVec.extractLsb'_append_eq_of_le (by decide)]
    exact BitVec.extractLsb'_append_eq_right
  have hlow : (physicalAddress (nextBase e) va).extractLsb' 0 12 = va.extractLsb' 0 12 := by
    rw [physicalAddress_eq_append]
    exact BitVec.extractLsb'_append_eq_right
  refine ⟨htop, hlow, ?_, base, e, here, ha ▸ hr, hmid⟩
  have hbits := congrArg BitVec.toNat htop
  simp only [BitVec.extractLsb'_toNat, Nat.shiftRight_eq_div_pow, BitVec.toNat_ofNat] at hbits
  omega

/-! ### Causes -/

/-- Settles O18: the walk's record names the level, the base and the cause it stopped with, so two of them are one. -/
theorem firstCauseEndsTheWalk : Obligations.FirstCauseEndsTheWalk := by
  intro va root img k base c here hc
  rw [causeHolds_iff_visit_cause] at hc
  obtain ⟨before, draws, _, hw⟩ := fullWalk_of_cause here hc
  refine ⟨by rw [hw]; rfl, by rw [hw]; rfl, ?_⟩
  intro k' base' c' here' hc'
  rw [causeHolds_iff_visit_cause] at hc'
  obtain ⟨before', draws', _, hw'⟩ := fullWalk_of_cause here' hc'
  have hsame := hw'.symm.trans hw
  have hcause : some c' = some c := congrArg Walk.cause hsame
  exact ⟨congrArg Walk.lvl hsame, congrArg Walk.base hsame, Option.some.inj hcause⟩

/-- Settles O19: level 1 is always reached, an overflow there stops the walk before its first read, and the index adds
at most 4088. -/
theorem rootOverflowReadsNothing : Obligations.RootOverflowReadsNothing := by
  intro va root img h
  have hv : visit img va .pml4 root = .overflow := visit_of_overflow h
  obtain ⟨before, draws, hlen, hw⟩ := fullWalk_of_cause (root := root) .start (by rw [hv]; rfl)
  obtain rfl : before = [] := List.length_eq_zero_iff.mp (Nat.succ.inj hlen)
  refine ⟨by rw [translateVa, hw]; rfl, by rw [reads, hw, hv]; rfl, ?_⟩
  have hidx := (index va .pml4).isLt
  omega

/-! ### Reads -/

/-- A level whose entry address is a word begins its reads with that word. -/
theorem walk_reads_head {img : Memory} {va : Word} {k : Level} {base a : Word}
    (ha : entryNumber va k base = a.toNat) (n : Nat) : ∃ rest, (walk img va n k base).reads = a :: rest := by
  rcases visit_of_address (img := img) ha with ⟨_, hv⟩ | ⟨e, _, _, hv⟩ | ⟨e, _, _, hv⟩
  · rw [walk_of_cause (c := .absent) (by rw [hv]; rfl), hv]
    exact ⟨[], rfl⟩
  · rw [walk_of_cause (c := .notPresent) (by rw [hv]; rfl), hv]
    exact ⟨[], rfl⟩
  · cases n with
    | zero => rw [walk_last, hv]; exact ⟨[], rfl⟩
    | succ n => rw [walk_of_entry hv]; exact ⟨_, rfl⟩

/-- Settles O20: one read for every level before, and then the level's own. -/
theorem readTraceIsEntryAddresses : Obligations.ReadTraceIsEntryAddresses := by
  intro va root img n a
  constructor
  · intro h
    obtain ⟨k, base, here, hk, ha⟩ := exists_reaches_of_walk_reads_getElem? rfl .start h
    exact ⟨k, base, here, hk.trans (Nat.add_comm 1 n), ha⟩
  · rintro ⟨k, base, here, hk, ha⟩
    obtain ⟨before, hlen, hw⟩ := fullWalk_of_reaches here
    obtain ⟨rest, hrest⟩ := walk_reads_head ha (img := img) (levelsAfter k)
    obtain rfl : before.length = n := by omega
    rw [reads, hw, Walk.after, hrest]
    simp

/-- Every cause but F-OVERFLOW is found by one read. -/
theorem visit_reads_length {v : Visit} {c : Cause} (h : v.cause = some c) (hc : c ≠ .overflow) :
    v.reads.length = 1 := by
  cases v <;> cases h
  · exact absurd rfl hc
  · rfl
  · rfl

/-- Settles O21: one read for every level before, and one at the level itself unless it overflows. -/
theorem readCounts : Obligations.ReadCounts := by
  intro va root img
  refine ⟨fun pa h => ?_, fun k base c here hc hne => ?_, rfl⟩
  · obtain ⟨_, _, _, _, _, _, hlen⟩ := lastEntry_of_ok h
    exact hlen
  · rw [causeHolds_iff_visit_cause] at hc
    obtain ⟨before, draws, hlen, hw⟩ := fullWalk_of_cause here hc
    rw [reads, hw, stopWalk, List.length_append, visit_reads_length hc hne, hlen]

/-! ### The image outside the addresses read -/

/-- A visit depends on the image at its entry address alone. -/
theorem visit_congr_of_read {img img' : Memory} {va : Word} {k : Level} {base : Word}
    (h : ∀ a : Word, entryNumber va k base = a.toNat → img'.read a = img.read a) :
    visit img' va k base = visit img va k base := by
  rcases entryNumber_overflow_or_word va k base with hge | ⟨a, ha⟩
  · rw [visit_of_overflow hge, visit_of_overflow hge]
  · rw [visit_eq_ofRead ha, visit_eq_ofRead ha, h a ha]

theorem visit_congr_of_walk_reads {img img' : Memory} {va : Word} {n : Nat} {k : Level} {base : Word}
    (h : ∀ a ∈ (walk img va n k base).reads, img'.read a = img.read a) :
    visit img' va k base = visit img va k base := by
  refine visit_congr_of_read fun a ha => h a ?_
  obtain ⟨rest, hrest⟩ := walk_reads_head (img := img) ha n
  rw [hrest]
  exact List.mem_cons_self

/-- A walk depends on the image at the addresses it reads alone, by induction on the levels left. -/
theorem walk_congr_of_reads {img img' : Memory} {va : Word} {n : Nat} {k : Level} {base : Word}
    (h : ∀ a ∈ (walk img va n k base).reads, img'.read a = img.read a) :
    walk img' va n k base = walk img va n k base := by
  induction n generalizing k base with
  | zero => rw [walk_last, walk_last, visit_congr_of_walk_reads h]
  | succ n ih =>
    have hv := visit_congr_of_walk_reads h
    cases hcase : visit img va k base with
    | entry a e =>
      rw [walk_of_entry hcase] at h
      have hrest := ih fun b hb => h b (List.mem_cons_of_mem a hb)
      rw [walk_of_entry (hv.trans hcase), walk_of_entry hcase, hrest]
    | _ => rw [walk_of_cause (by rw [hv, hcase]; rfl), walk_of_cause (by rw [hcase]; rfl), hv]

/-- Settles O26. -/
theorem onlyReadAddressesMatter : Obligations.OnlyReadAddressesMatter := by
  intro va root img img' h
  have hw : fullWalk va root img' = fullWalk va root img := walk_congr_of_reads h
  exact ⟨congrArg Walk.result hw, congrArg Walk.reads hw⟩

/-! ### The next state of a TRANSLATE -/

theorem faultTag_eq (r : Result) : faultTag r = decide (r = .fault) := by
  cases r <;> rfl

/-- Settles O14: the level, the base and the count of free values are those the walk ends with. -/
theorem translateCompletes : Obligations.TranslateCompletes := by
  intro s va root h
  refine ⟨(fullWalk va root s.img).lvl, (fullWalk va root s.img).base, s.draws + (fullWalk va root s.img).draws, ?_⟩
  rw [exec_of_idle _ h, State.acceptInstr, runHeld_acceptTranslate, State.afterWalk, faultTag_eq, h]
  rfl

end Machine

end Sys2Proof
end

section
/-! The whole effect of each step of the PTW and of the requester's offer (R78 to R82). -/

namespace Sys2Proof.Machine

open Sys2Proof.Safety

/-- A step of the PTW is the micro-step that its `st` enables, with the move off the agenda. -/
theorem step_ptw {s : State} (h : s.nextMove = .ptw) : step s = .next s.dropMove.ptwStep :=
  step_of_nextMove h

theorem ptwStep_of_idle {s : State} (h : s.st = .idle) : s.ptwStep = s.acceptStep := by
  simp only [State.ptwStep, h]

theorem ptwStep_of_wait {s : State} (h : s.st = .wait) : s.ptwStep = s.takeStep := by
  simp only [State.ptwStep, h]

theorem ptwStep_of_resp {s : State} (h : s.st = .resp) : s.ptwStep = s := by
  simp only [State.ptwStep, h]

/-! ### ACCEPT -/

theorem acceptStep_of_request {s : State} {w : ReqWord} (h : s.reqChan = some w) :
    s.acceptStep = ({ s with reqChan := none } : State).acceptInstr (decode w) := by
  simp only [State.acceptStep, h]

/-- Settles O30: the decoded request decides between the two ways to accept it. -/
theorem acceptStepEffect : Obligations.AcceptStepEffect := by
  intro s w hmove hst hw
  have hstep : step s = .next (({ s.dropMove with reqChan := none } : State).acceptInstr (decode w)) := by
    rw [step_ptw hmove, ptwStep_of_idle (s.dropMove_st.trans hst),
      acceptStep_of_request (s.dropMove_reqChan.trans hw)]
  constructor
  · intro va root hd
    rw [hstep, hd, ← packIndices_extractIndices]
    rfl
  · intro va root hd
    rw [hstep, hd]
    rfl

/-! ### ISSUE -/

/-- ISSUE of a sum of 2^64 or more raises F-OVERFLOW and sends nothing (R70). -/
theorem issueStep_of_overflow {s : State} (h : 2 ^ 64 ≤ entryNumber s.vaQ s.lvl s.baseQ) :
    s.issueStep = s.raiseFault := by
  rcases issueStep_cases s with ⟨_, hi⟩ | ⟨a, ha, _⟩
  · exact hi
  · exact absurd a.isLt (by omega)

/-- ISSUE of a sum that is an address sends a read of that address. -/
theorem issueStep_of_address {s : State} {a : Word} (h : entryNumber s.vaQ s.lvl s.baseQ = a.toNat) :
    s.issueStep = { s.sendRead a with st := .wait } := by
  rcases issueStep_cases s with ⟨hv, _⟩ | ⟨b, hb, _, hi⟩
  · rcases visit_of_address (img := s.img) h with ⟨_, hv'⟩ | ⟨_, _, _, hv'⟩ | ⟨_, _, _, hv'⟩ <;>
      cases hv.symm.trans hv'
  · obtain rfl : b = a := BitVec.eq_of_toNat_eq (hb.symm.trans h)
    exact hi

/-- Settles O31. -/
theorem issueStepEffect : Obligations.IssueStepEffect := by
  intro s hmove hst
  have hstep : step s = .next s.dropMove.issueStep := by
    rw [step_ptw hmove, ptwStep_of_issue (s.dropMove_st.trans hst)]
  constructor
  · intro hge
    rw [hstep, issueStep_of_overflow (s := s.dropMove) hge]
    rfl
  · intro a ha
    rw [hstep, issueStep_of_address (s := s.dropMove) ha]
    rfl

/-! ### TAKE -/

theorem nextLevel_of_levelNumber {k k' : Level} (h : levelNumber k' = levelNumber k + 1) :
    nextLevel k = some k' := by
  cases k <;> cases k' <;> cases h <;> rfl

theorem nextLevel_of_last {k : Level} (h : levelNumber k = 4) : nextLevel k = none := by
  cases k <;> cases h
  rfl

/-- An absent answer and an entry that is not present end the walk (R80 i, ii). -/
theorem takeAnswer_of_fault {m : Mrsp} (h : m.present = false ∨ isPresent m.data = false) (s : State) :
    s.takeAnswer m = s.raiseFault := by
  rcases takeAnswer_cases m s with ⟨_, ht⟩ | ⟨hpresent, hbit, _⟩
  · exact ht
  · simp [hpresent, hbit] at h

/-- A present entry below level 4 takes the walk down (R80 iii). -/
theorem takeAnswer_of_next {m : Mrsp} {s : State} {k : Level} (hpresent : m.present = true)
    (hbit : isPresent m.data = true) (hk : nextLevel s.lvl = some k) : s.takeAnswer m = s.descend m.data k := by
  rcases takeAnswer_cases m s with ⟨hf, _⟩ | ⟨_, _, ⟨k', hk', ht⟩ | ⟨hnone, _⟩⟩
  · simp [hpresent, hbit] at hf
  · obtain rfl : k' = k := Option.some.inj (hk'.symm.trans hk)
    exact ht
  · simp [hk] at hnone

/-- A present entry at level 4 completes it (R80 iv). -/
theorem takeAnswer_of_last {m : Mrsp} {s : State} (hpresent : m.present = true) (hbit : isPresent m.data = true)
    (hk : nextLevel s.lvl = none) : s.takeAnswer m = s.respondOk (physicalAddress (nextBase m.data) s.vaQ) := by
  rcases takeAnswer_cases m s with ⟨hf, _⟩ | ⟨_, _, ⟨k', hk', _⟩ | ⟨_, ht⟩⟩
  · simp [hpresent, hbit] at hf
  · simp [hk] at hk'
  · exact ht

/-- Settles O32: TAKE by its answer, and the wait without one. -/
theorem takeStepEffect : Obligations.TakeStepEffect := by
  intro s hmove hst
  have hstep : step s = .next s.dropMove.takeStep := by
    rw [step_ptw hmove, ptwStep_of_wait (s.dropMove_st.trans hst)]
  have hanswer : ∀ m, s.memChan = .answer m →
      step s = .next (({ s.dropMove with memChan := .empty } : State).takeAnswer m) := fun m hm => by
    rw [hstep, takeStep_answer (s.dropMove_memChan.trans hm)]
  refine ⟨?_, ?_, ?_, ?_⟩
  · intro m hm hfault
    rw [hanswer m hm, takeAnswer_of_fault hfault]
    rfl
  · intro m k hm hpresent hbit hk
    rw [hanswer m hm, takeAnswer_of_next (s := { s.dropMove with memChan := .empty }) hpresent hbit
      (nextLevel_of_levelNumber hk)]
    rfl
  · intro m hm hpresent hbit hlast
    rw [hanswer m hm, takeAnswer_of_last (s := { s.dropMove with memChan := .empty }) hpresent hbit
      (nextLevel_of_last hlast), physicalAddress, pageOffset_eq_slice]
    rfl
  · intro a hm
    rw [hstep, takeStep_noAnswer (by simp [hm])]
    rfl

/-! ### RESPOND and the requester's offer -/

/-- Settles O33: RESPOND belongs to the requester's move; the PTW's own step in RESP changes nothing. -/
theorem respondStepEffect : Obligations.RespondStepEffect := by
  intro s hst
  have hst' : s.dropMove.st = .resp := s.dropMove_st.trans hst
  constructor
  · intro hmove
    have hstep : step s = .next s.dropMove.respond := step_of_nextMove hmove
    rw [hstep, respond_of_resp hst']
    rfl
  · intro hmove
    rw [step_ptw hmove, ptwStep_of_resp hst']
    rfl

theorem offer_of_empty {s : State} {w : ReqWord} {ws : List ReqWord} (hq : s.reqChan = none)
    (ho : s.offers = w :: ws) : s.offer = { s with reqChan := some w, offers := ws } := by
  simp only [State.offer, hq, ho]

theorem offer_of_taken {s : State} (hq : s.reqChan ≠ none) : s.offer = s := by
  rcases offer_cases s with ⟨_, _, hnone, _⟩ | h
  · exact absurd hnone hq
  · exact h

/-- Settles O36. -/
theorem requesterOffersInOrder : Obligations.RequesterOffersInOrder := by
  intro s w ws hmove hoffers
  have hstep : step s = .next s.dropMove.offer := step_of_nextMove hmove
  constructor
  · intro hq
    rw [hstep, offer_of_empty (s.dropMove_reqChan.trans hq) (s.dropMove_offers.trans hoffers)]
    rfl
  · intro hq
    have hq' : s.dropMove.reqChan ≠ none := hq
    rw [hstep, offer_of_taken hq']
    rfl

end Sys2Proof.Machine
end

section
/-! What a held request comes to (R82, R83): the requester's queue has no part in it, no micro-step changes it, and the
prompt schedule comes to the transaction. -/

namespace Sys2Proof.Machine

open Sys2Proof.Safety

/-! ### What the requester still has to offer does not matter to a held request -/

/-- The same state with another request channel and another queue of the requester. -/
def State.withQueue (q : Option ReqWord) (os : List ReqWord) (s : State) : State :=
  { s with reqChan := q, offers := os }

section queue

variable (q : Option ReqWord) (os : List ReqWord) (s : State)

theorem withQueue_memAnswer : (s.withQueue q os).memAnswer = s.memAnswer.withQueue q os := by
  cases hm : s.memChan with
  | request a =>
    cases hr : s.img.read a with
    | none => rw [memAnswer_absent hm hr, memAnswer_absent (s := s.withQueue q os) hm hr]; rfl
    | some e => rw [memAnswer_present hm hr, memAnswer_present (s := s.withQueue q os) hm hr]; rfl
  | _ => rw [memAnswer_nothing (s := s) (by simp [hm]), memAnswer_nothing (by simp [State.withQueue, hm])]

theorem withQueue_takeAnswer (m : Mrsp) : (s.withQueue q os).takeAnswer m = (s.takeAnswer m).withQueue q os := by
  rcases takeAnswer_cases m s with ⟨hf, h⟩ | ⟨hp, hb, ⟨k, hk, h⟩ | ⟨hk, h⟩⟩
  · rw [h, takeAnswer_of_fault hf]; rfl
  · rw [h, takeAnswer_of_next (s := s.withQueue q os) hp hb hk]; rfl
  · rw [h, takeAnswer_of_last (s := s.withQueue q os) hp hb hk]; rfl

theorem withQueue_takeStep : (s.withQueue q os).takeStep = s.takeStep.withQueue q os := by
  cases hm : s.memChan with
  | answer m =>
    rw [takeStep_answer hm, takeStep_answer (s := s.withQueue q os) hm]
    exact withQueue_takeAnswer q os { s with memChan := .empty } m
  | _ => rw [takeStep_noAnswer (s := s) (by simp [hm]), takeStep_noAnswer (by simp [State.withQueue, hm])]

theorem withQueue_setResult (r : Result) : (s.withQueue q os).setResult r = (s.setResult r).withQueue q os := by
  cases r <;> rfl

theorem withQueue_finishWalk : (s.withQueue q os).finishWalk = s.finishWalk.withQueue q os := by
  simp only [State.finishWalk]
  rw [← withQueue_setResult]
  rfl

theorem withQueue_finishHeld : (s.withQueue q os).finishHeld = s.finishHeld.withQueue q os := by
  have hs : (s.withQueue q os).st = s.st := rfl
  have ht : (s.memAnswer.takeStep.withQueue q os).st = s.memAnswer.takeStep.st := rfl
  simp only [State.finishHeld, hs, withQueue_memAnswer, withQueue_takeStep, ht]
  cases s.st with
  | issue => exact withQueue_finishWalk q os s
  | wait =>
    dsimp only
    split
    · exact withQueue_finishWalk q os _
    · rfl
  | _ => rfl

theorem withQueue_respond : (s.withQueue q os).respond = s.respond.withQueue q os := by
  by_cases h : s.st = .resp
  · rw [respond_of_resp h, respond_of_resp (s := s.withQueue q os) h]; rfl
  · rw [respond_of_not_resp h, respond_of_not_resp (s := s.withQueue q os) h]

end queue

/-- Finishing a held request leaves the requester's side as it is. -/
theorem finishHeld_withQueue_self (s : State) : s.finishHeld.withQueue s.reqChan s.offers = s.finishHeld :=
  (withQueue_finishHeld s.reqChan s.offers s).symm

theorem toServe_finishHeld (s : State) : toServe s.finishHeld = toServe s := by
  rw [← finishHeld_withQueue_self]
  rfl

theorem toServe_respond (s : State) : toServe s.respond = toServe s := by
  rcases respond_cases s with _ | h
  · rw [toServe, State.respond_reqChan, State.respond_offers, toServe]
  · rw [h]

theorem toServe_runHeld (s : State) : toServe s.runHeld = toServe s := by
  rw [State.runHeld, toServe_respond, toServe_finishHeld]

theorem offer_eq_withQueue (s : State) : s.offer = s.withQueue s.offer.reqChan s.offer.offers := by
  rcases offer_cases s with ⟨w, ws, _, _, h⟩ | h <;> rw [h] <;> rfl

theorem toServe_offer (s : State) : toServe s.offer = toServe s := by
  rcases offer_cases s with ⟨w, ws, hq, ho, h⟩ | h <;> rw [h]
  simp [toServe, hq, ho]

/-! ### What a held request comes to -/

@[simp] theorem finishHeld_taken (s : State) : s.finishHeld.taken = s.taken := by
  unfold State.finishHeld
  split
  · simp [State.finishWalk]
  · dsimp only
    split <;> simp [State.finishWalk]
  · rfl

theorem finishHeld_of_idle {s : State} (h : s.st = .idle) : s.finishHeld = s := by
  simp only [State.finishHeld, h]

/-- A coherent PTW that holds a request can always finish it: in WAIT a read is in flight (R24 c). -/
theorem finishHeld_st {s : State} (hco : Coherent s) (hst : s.st ≠ .idle) : s.finishHeld.st = .resp := by
  have hwalk : ∀ {t : State}, t.st = .issue ∨ t.st = .resp → t.finishHeld.st = .resp := by
    rintro t (h | h)
    · simp only [State.finishHeld, h, finishWalk_st]
    · rw [finishHeld_of_resp h, h]
  cases h : s.st with
  | idle => exact absurd h hst
  | issue => exact hwalk (Or.inl h)
  | resp => exact hwalk (Or.inr h)
  | wait =>
    rcases memAnswer_memChan_cases s with ⟨m, hm⟩ | ⟨hm, _⟩
    · rw [← finishHeld_memAnswer (memChan_empty_of_coherent hco), ← finishHeld_takeStep (s.memAnswer_st.trans h),
        takeStep_answer hm]
      exact hwalk (takeAnswer_st m _)
    · have hflight := hco.inFlight
      simp only [inFlightOk, hm] at hflight
      exact absurd h hflight

theorem runHeld_eq {s : State} (hco : Coherent s) (hst : s.st ≠ .idle) :
    s.runHeld = { s.finishHeld with
      st := .idle
      taken := s.taken ++ [{ fault := s.finishHeld.resFault, data := s.finishHeld.resData }] } := by
  rw [State.runHeld, respond_of_resp (finishHeld_st hco hst), finishHeld_taken]

/-- The PTW's own step does not change what the held request comes to. -/
theorem finishHeld_ptwStep {s : State} (hco : Coherent s) (hst : s.st ≠ .idle) :
    s.ptwStep.finishHeld = s.finishHeld := by
  cases h : s.st with
  | idle => exact absurd h hst
  | issue =>
    rw [ptwStep_of_issue h]
    exact finishHeld_issueStep h (memChan_empty_of_coherent hco (by simp [h]))
  | wait => rw [ptwStep_of_wait h, finishHeld_takeStep h]
  | resp => rw [ptwStep_of_resp h]

/-! ### The same request -/

/-- `t` holds the request that `s` holds, and finishing it gives the same, but for what the requester has offered. -/
structure State.SameRequest (s t : State) : Prop where
  finish : t.finishHeld = s.finishHeld.withQueue t.reqChan t.offers
  serve : toServe t = toServe s

theorem State.SameRequest.refl (s : State) : s.SameRequest s :=
  ⟨(finishHeld_withQueue_self s).symm, rfl⟩

theorem State.SameRequest.trans {s t u : State} (h : s.SameRequest t) (h' : t.SameRequest u) : s.SameRequest u where
  finish := by rw [h'.finish, h.finish]; rfl
  serve := h'.serve.trans h.serve

theorem sameRequest_of_finishHeld_eq {s t : State} (h : t.finishHeld = s.finishHeld) : s.SameRequest t where
  finish := by rw [← h, finishHeld_withQueue_self]
  serve := by rw [← toServe_finishHeld t, h, toServe_finishHeld]

theorem sameRequest_offer (s : State) : s.SameRequest s.offer where
  finish := by rw [← withQueue_finishHeld, ← offer_eq_withQueue]
  serve := toServe_offer s

theorem State.SameRequest.taken {s t : State} (h : s.SameRequest t) : t.taken = s.taken := by
  rw [← finishHeld_taken t, h.finish]
  exact finishHeld_taken s

theorem State.SameRequest.busy {s t : State} (h : s.SameRequest t) (hco : Coherent s) (hst : s.st ≠ .idle) :
    t.st ≠ .idle := by
  intro ht
  have hresp : (s.finishHeld.withQueue t.reqChan t.offers).st = .resp := finishHeld_st hco hst
  rw [← h.finish, finishHeld_of_idle ht, ht] at hresp
  cases hresp

theorem State.SameRequest.runHeld {s t : State} (h : s.SameRequest t) :
    t.runHeld = s.runHeld.withQueue t.reqChan t.offers := by
  rw [State.runHeld, h.finish, withQueue_respond, ← State.runHeld]

/-! ### The prompt schedule -/

/-- The PTW after it has taken this request off its channel. -/
def State.accepted (w : ReqWord) (s : State) : State :=
  ({ s with reqChan := none } : State).acceptInstr (decode w)

/-- The PTW after ISSUE, M-ANSWER and TAKE. -/
def State.afterRound (s : State) : State :=
  s.ptwStep.memAnswer.ptwStep

theorem afterMoves_append (ms ms' : List Move) (s : State) :
    s.afterMoves (ms ++ ms') = (s.afterMoves ms).afterMoves ms' :=
  List.foldl_append

theorem afterMoves_levelRound (s : State) : s.afterMoves levelRound = s.afterRound :=
  rfl

theorem coherent_afterRound {s : State} (hco : Coherent s) : Coherent s.afterRound :=
  coherent_ptwStep (coherent_memAnswer (coherent_ptwStep hco))

theorem finishHeld_afterRound {s : State} (hco : Coherent s) (hst : s.st ≠ .idle) :
    s.afterRound.finishHeld = s.finishHeld := by
  have hco1 : Coherent s.ptwStep := coherent_ptwStep hco
  have h1 : s.ptwStep.finishHeld = s.finishHeld := finishHeld_ptwStep hco hst
  have h2 : s.ptwStep.memAnswer.finishHeld = s.finishHeld :=
    (finishHeld_memAnswer (memChan_empty_of_coherent hco1)).trans h1
  have hbusy : s.ptwStep.memAnswer.st ≠ .idle := (sameRequest_of_finishHeld_eq h2).busy hco hst
  exact (finishHeld_ptwStep (coherent_memAnswer hco1) hbusy).trans h2

/-- In RESP a round changes nothing. -/
theorem afterRound_of_resp {s : State} (hco : Coherent s) (h : s.st = .resp) : s.afterRound = s := by
  have hm : s.memChan = .empty := memChan_empty_of_coherent hco (by simp [h])
  rw [State.afterRound, ptwStep_of_resp h, memAnswer_nothing (by simp [hm]), ptwStep_of_resp h]

/-- A round takes a walk to its result or to the next level. -/
theorem afterRound_of_issue {s : State} (h : s.st = .issue) :
    s.afterRound.st = .resp ∨ s.afterRound.st = .issue ∧ nextLevel s.lvl = some s.afterRound.lvl := by
  rw [State.afterRound, ptwStep_of_issue h]
  rcases issueStep_cases s with ⟨_, hi⟩ | ⟨a, _, _, hi⟩ <;> rw [hi]
  · left
    rw [ptwStep_of_resp ((State.memAnswer_st _).trans s.raiseFault_st)]
    exact (State.memAnswer_st _).trans s.raiseFault_st
  · obtain ⟨m, hm⟩ := (memAnswer_memChan_cases { s.sendRead a with st := .wait }).resolve_right (by simp)
    rw [ptwStep_of_wait (State.memAnswer_st _), takeStep_answer hm]
    rcases takeAnswer_cases m _ with ⟨_, ht⟩ | ⟨_, _, ⟨k, hk, ht⟩ | ⟨_, ht⟩⟩ <;> rw [ht]
    · exact Or.inl rfl
    · exact Or.inr ⟨rfl, by simpa [State.descend] using hk⟩
    · exact Or.inl rfl

/-- As many rounds as levels are left bring a request to its result, by induction on the rounds. -/
theorem afterMoves_rounds {n : Nat} {s : State} (hco : Coherent s)
    (h : s.st = .resp ∨ s.st = .issue ∧ levelsAfter s.lvl < n) :
    s.afterMoves (List.replicate n levelRound).flatten = s.finishHeld := by
  induction n generalizing s with
  | zero => exact (finishHeld_of_resp (h.resolve_right (by omega))).symm
  | succ n ih =>
    rw [List.replicate_succ, List.flatten_cons, afterMoves_append, afterMoves_levelRound]
    rcases h with h | ⟨h, hn⟩
    · rw [afterRound_of_resp hco h]
      exact ih hco (Or.inl h)
    · rw [← finishHeld_afterRound hco (by simp [h])]
      refine ih (coherent_afterRound hco) ((afterRound_of_issue h).imp_right fun ⟨hissue, hk⟩ => ⟨hissue, ?_⟩)
      rcases nextLevel_cases s.lvl with ⟨_, hlast, _⟩ | ⟨hbump, hafter⟩
      · simp [hk] at hlast
      · rw [Option.some.inj (hk.symm.trans hbump)]
        omega

/-- An accepted request has its result, or is about to issue the read of level 1 (R78). -/
theorem accepted_cases (w : ReqWord) (s : State) :
    (s.accepted w).st = .resp ∨ (s.accepted w).st = .issue ∧ (s.accepted w).lvl = .pml4 := by
  unfold State.accepted
  cases decode w with
  | extract va root => exact Or.inl rfl
  | translate va root => exact Or.inr ⟨rfl, rfl⟩

theorem coherent_accepted (w : ReqWord) {s : State} (hco : Coherent s) (hst : s.st = .idle) :
    Coherent (s.accepted w) := by
  have hm : s.memChan = .empty := memChan_empty_of_coherent hco (by simp [hst])
  exact coherent_acceptInstr (decode w) (s := { s with reqChan := none }) hco.image hm

theorem afterMoves_promptSchedule {s : State} {w : ReqWord} (hco : Coherent s) (hst : s.st = .idle)
    (hw : s.reqChan = some w) : s.afterMoves promptSchedule = (s.accepted w).runHeld := by
  have haccept : s.afterMove .ptw = s.accepted w := (ptwStep_of_idle hst).trans (acceptStep_of_request hw)
  have hrounds : (s.accepted w).afterMoves (List.replicate 4 levelRound).flatten = (s.accepted w).finishHeld := by
    refine afterMoves_rounds (coherent_accepted w hco hst) ((accepted_cases w s).imp_right ?_)
    rintro ⟨hissue, hl⟩
    rw [hl]
    exact ⟨hissue, by decide⟩
  calc s.afterMoves promptSchedule
      = ((s.afterMove .ptw).afterMoves (List.replicate 4 levelRound).flatten).afterMoves [.take] :=
        afterMoves_append (.ptw :: (List.replicate 4 levelRound).flatten) [.take] s
    _ = (s.accepted w).finishHeld.respond := by rw [haccept, hrounds]; rfl

/-- Settles O50: four rounds bring every request to its result, and agenda and cycle have no part in it. -/
theorem microStepsAgreeWithTransaction : Obligations.MicroStepsAgreeWithTransaction := by
  intro s w hco hst hw
  have hidle : ({ s with reqChan := none, agenda := [] } : State).st = .idle := hst
  rw [follow_eq, afterMoves_promptSchedule hco hst hw, ← plan_runHeld, State.accepted, ← plan_acceptInstr,
    exec_of_idle _ hidle]
  rfl

end Sys2Proof.Machine
end

section
/-! A schedule without a reset from a held request (R59, R82; 93 U15): the request stays the same, or its response is
taken and stands in the records, which only grow. -/

namespace Sys2Proof.Machine

open Sys2Proof.Safety

/-! ### One move from a held request -/

/-- RESPOND finishes a request that has its result, and is a wait otherwise. -/
theorem respond_eq_runHeld_or_self (s : State) : s.respond = s.runHeld ∨ s.respond = s := by
  by_cases h : s.st = .resp
  · exact Or.inl (by rw [State.runHeld, finishHeld_of_resp h])
  · exact Or.inr (respond_of_not_resp h)

/-- A move without a reset finishes the held request, its response being taken, or leaves it the same request. -/
theorem afterMove_of_held {m : Move} {s : State} (hco : Coherent s) (hst : s.st ≠ .idle) (hm : noReset m = true) :
    s.afterMove m = s.runHeld ∨ s.SameRequest (s.afterMove m) := by
  have hptw : s.SameRequest s.ptwStep := sameRequest_of_finishHeld_eq (finishHeld_ptwStep hco hst)
  have htake : s.respond = s.runHeld ∨ s.SameRequest s.respond :=
    (respond_eq_runHeld_or_self s).imp_right fun (h : s.respond = s) => h.symm ▸ .refl s
  cases m with
  | transact => exact Or.inl (afterMove_transact_held hst)
  | offer => exact Or.inr (sameRequest_offer s)
  | ptw => exact Or.inr hptw
  | memAnswer =>
    exact Or.inr (sameRequest_of_finishHeld_eq (finishHeld_memAnswer (memChan_empty_of_coherent hco)))
  | take => exact htake
  | reset => cases hm
  | edge p =>
    have hedge : s.afterMove (.edge p) = s.clockEdge p := rfl
    rw [hedge]
    rcases clockEdge_cases p s with ⟨hr, _⟩ | ⟨_, h | h | ⟨_, h⟩⟩
    · simp [noReset, hr] at hm
    · exact Or.inr (h ▸ hptw)
    · exact Or.inr (h.symm ▸ .refl s)
    · rw [h]
      exact htake

/-! ### The records only grow -/

/-- Nothing is struck off what the requester has received or what has been sent (R112). -/
structure State.RecordsGrow (s t : State) : Prop where
  taken : s.taken <+: t.taken
  readLog : s.readLog <+: t.readLog

theorem State.RecordsGrow.of_eq {s t : State} (ht : t.taken = s.taken) (hr : t.readLog = s.readLog) :
    s.RecordsGrow t :=
  ⟨ht ▸ List.prefix_rfl, hr ▸ List.prefix_rfl⟩

theorem State.RecordsGrow.trans {s t u : State} (h : s.RecordsGrow t) (h' : t.RecordsGrow u) : s.RecordsGrow u :=
  ⟨h.taken.trans h'.taken, h.readLog.trans h'.readLog⟩

theorem recordsGrow_respond (s : State) : s.RecordsGrow s.respond := by
  by_cases h : s.st = .resp
  · rw [respond_of_resp h]
    exact ⟨List.prefix_append _ _, List.prefix_rfl⟩
  · rw [respond_of_not_resp h]
    exact .of_eq rfl rfl

theorem recordsGrow_ptwStep (s : State) : s.RecordsGrow s.ptwStep := by
  cases h : s.st with
  | idle => rw [ptwStep_of_idle h]; exact .of_eq (acceptStep_taken s) (acceptStep_readLog s)
  | issue =>
    rw [ptwStep_of_issue h]
    rcases issueStep_cases s with ⟨_, hi⟩ | ⟨a, _, _, hi⟩ <;> rw [hi]
    · exact .of_eq rfl rfl
    · exact ⟨List.prefix_rfl, List.prefix_append _ _⟩
  | wait => rw [ptwStep_of_wait h]; exact .of_eq (takeStep_taken s) (takeStep_readLog s)
  | resp => rw [ptwStep_of_resp h]; exact .of_eq rfl rfl

theorem recordsGrow_finishWalk (s : State) : s.RecordsGrow s.finishWalk := by
  constructor <;> simp [State.finishWalk]

theorem recordsGrow_finishHeld (s : State) : s.RecordsGrow s.finishHeld := by
  have htake : s.RecordsGrow s.memAnswer.takeStep := .of_eq (by simp) (by simp)
  unfold State.finishHeld
  split
  · exact recordsGrow_finishWalk s
  · dsimp only
    split
    · exact htake.trans (recordsGrow_finishWalk _)
    · exact htake
  · exact .of_eq rfl rfl

theorem recordsGrow_runHeld (s : State) : s.RecordsGrow s.runHeld :=
  (recordsGrow_finishHeld s).trans (recordsGrow_respond _)

theorem recordsGrow_transact (s : State) : s.RecordsGrow (s.afterMove .transact) := by
  by_cases hst : s.st = .idle
  · rcases Option.eq_none_or_eq_some s.reqChan with hw | ⟨w, hw⟩
    · rw [afterMove_transact_quiet hst hw]
      exact .of_eq s.offer_taken s.offer_readLog
    · rw [afterMove_transact_request hst hw]
      have haccept : s.RecordsGrow (s.accepted w) := .of_eq (acceptInstr_taken _ _) (acceptInstr_readLog _ _)
      exact haccept.trans (recordsGrow_runHeld _)
  · rw [afterMove_transact_held hst]
    exact recordsGrow_runHeld s

theorem recordsGrow_afterMove (m : Move) (s : State) : s.RecordsGrow (s.afterMove m) := by
  cases m with
  | transact => exact recordsGrow_transact s
  | offer => exact .of_eq s.offer_taken s.offer_readLog
  | ptw => exact recordsGrow_ptwStep s
  | memAnswer => exact .of_eq s.memAnswer_taken s.memAnswer_readLog
  | take => exact recordsGrow_respond s
  | reset => exact .of_eq rfl rfl
  | edge p =>
    have hedge : s.afterMove (.edge p) = s.clockEdge p := rfl
    rw [hedge]
    rcases clockEdge_cases p s with ⟨_, h⟩ | ⟨_, h | h | ⟨_, h⟩⟩ <;> rw [h]
    · exact .of_eq rfl rfl
    · exact recordsGrow_ptwStep s
    · exact .of_eq rfl rfl
    · exact recordsGrow_respond s

theorem recordsGrow_afterMoves (ms : List Move) (s : State) : s.RecordsGrow (s.afterMoves ms) := by
  induction ms generalizing s with
  | nil => exact .of_eq rfl rfl
  | cons m ms ih => exact (recordsGrow_afterMove m s).trans (ih _)

/-! ### A schedule from a held request -/

/-- Through a schedule without a reset the held request stays the same request, or its response is taken and stands in
the outcome. -/
theorem sameRequest_or_recordsGrow {ms : List Move} {s : State} (hco : Coherent s) (hst : s.st ≠ .idle)
    (hms : ms.all noReset = true) : s.SameRequest (s.afterMoves ms) ∨ s.runHeld.RecordsGrow (s.afterMoves ms) := by
  induction ms generalizing s with
  | nil => exact Or.inl (.refl s)
  | cons m ms ih =>
    obtain ⟨hm, hms⟩ := Bool.and_eq_true_iff.mp hms
    have hcons : s.afterMoves (m :: ms) = (s.afterMove m).afterMoves ms := rfl
    rw [hcons]
    rcases afterMove_of_held hco hst hm with h | h
    · rw [h]
      exact Or.inr (recordsGrow_afterMoves ms _)
    · refine (ih (coherent_afterMove m hco) (h.busy hco hst) hms).imp h.trans fun hgrow => ?_
      rw [h.runHeld] at hgrow
      exact ⟨hgrow.taken, hgrow.readLog⟩

/-- With agenda and cycle empty a held request is finished by one step. -/
theorem step_prompt_held {s : State} (hst : s.st ≠ .idle) :
    step { s with agenda := [], cycle := [] } = .next (s.runHeld.plan [] []) := by
  have hrun : step { s with agenda := [], cycle := [] } = .next ((s.plan [] []).afterMove .transact) :=
    step_eq_afterMove (s.plan [] [])
  rw [hrun, plan_afterMove, afterMove_transact_held hst]

/-- Settles O51: by the records alone one sees which of the two the schedule did. -/
theorem scheduleDoesNotMatter : Obligations.ScheduleDoesNotMatter := by
  intro ms s t u hco hst hms ht hu
  rw [follow_eq] at ht
  rw [step_prompt_held hst] at hu
  obtain rfl := Host.Outcome.next.inj ht
  obtain rfl := Host.Outcome.next.inj hu
  rcases sameRequest_or_recordsGrow hco hst hms with h | h
  · have hbusy : (s.afterMoves ms).st ≠ .idle := h.busy hco hst
    refine ⟨fun _ => ⟨hbusy, ?_⟩, fun hne => absurd h.taken hne⟩
    have hstep := step_prompt_held hbusy
    rw [h.runHeld] at hstep
    exact hstep
  · refine ⟨fun heq => ?_, fun _ => ⟨h.taken, h.readLog⟩⟩
    have hlen := h.taken.length_le
    have heq' : (s.afterMoves ms).taken = s.taken := heq
    rw [runHeld_eq hco hst, heq', List.length_append] at hlen
    exact absurd hlen (Nat.not_succ_le_self _)

end Sys2Proof.Machine
end

section
/-! A schedule without a reset from an idle PTW (R59, R82, R83): the responses and the reads are those of the pure
functions, by an invariant with a case for an idle and one for a busy PTW. -/

namespace Sys2Proof.Machine

open Sys2Proof.Safety

/-! ### The responses of a schedule -/

/-- The responses of these requests, in order. -/
def responsesOf (img : Memory) (ws : List ReqWord) : List Rsp :=
  ws.map fun w => responseOf img (decode w)

/-- The reads of these requests, in order. -/
def readsOfAll (img : Memory) (ws : List ReqWord) : List Word :=
  (ws.map fun w => readsOf img (decode w)).flatten

theorem responsesOf_concat (img : Memory) (ws : List ReqWord) (w : ReqWord) :
    responsesOf img (ws ++ [w]) = responsesOf img ws ++ [responseOf img (decode w)] := by
  simp [responsesOf]

theorem readsOfAll_concat (img : Memory) (ws : List ReqWord) (w : ReqWord) :
    readsOfAll img (ws ++ [w]) = readsOfAll img ws ++ readsOf img (decode w) := by
  simp [readsOfAll]

/-- Between two requests: `served` are answered, their reads are sent, the others are left. -/
structure State.ServedIdle (s : State) (served : List ReqWord) (t : State) : Prop where
  idle : t.st = .idle
  serve : toServe s = served ++ toServe t
  taken : t.taken = s.taken ++ responsesOf s.img served
  readLog : t.readLog = s.readLog ++ readsOfAll s.img served

/-- Inside request `w`, `served` being answered: finishing it gives its response and the rest of its reads. -/
structure State.ServedBusy (s : State) (served : List ReqWord) (w : ReqWord) (t : State) : Prop where
  busy : t.st ≠ .idle
  serve : toServe s = served ++ w :: toServe t
  taken : t.taken = s.taken ++ responsesOf s.img served
  sent : s.readLog ++ readsOfAll s.img served <+: t.readLog
  response : t.runHeld.taken = t.taken ++ [responseOf s.img (decode w)]
  readLog : t.runHeld.readLog = s.readLog ++ readsOfAll s.img served ++ readsOf s.img (decode w)

/-- What a run from `s` without a reset can have come to. -/
def State.Serves (s t : State) : Prop :=
  ∃ served, s.ServedIdle served t ∨ ∃ w, s.ServedBusy served w t

theorem runHeld_acceptInstr_taken (i : Instr) (s : State) :
    (s.acceptInstr i).runHeld.taken = s.taken ++ [responseOf s.img i] := by
  cases i with
  | extract va root => rw [State.acceptInstr, runHeld_acceptExtract]; rfl
  | translate va root => rw [State.acceptInstr, runHeld_acceptTranslate]; rfl

theorem runHeld_acceptInstr_readLog (i : Instr) (s : State) :
    (s.acceptInstr i).runHeld.readLog = s.readLog ++ readsOf s.img i := by
  cases i with
  | extract va root => rw [State.acceptInstr, runHeld_acceptExtract]; exact (List.append_nil _).symm
  | translate va root => rw [State.acceptInstr, runHeld_acceptTranslate]; rfl

theorem accepted_st (w : ReqWord) (s : State) : (s.accepted w).st ≠ .idle := by
  rcases accepted_cases w s with h | ⟨h, _⟩ <;> simp [h]

/-- Accepting a request takes it off the list of those still to be served. -/
theorem toServe_accepted {s : State} {w : ReqWord} (hw : s.reqChan = some w) :
    toServe s = w :: toServe (s.accepted w) := by
  have hoffers : (s.accepted w).offers = s.offers := by
    unfold State.accepted
    cases decode w <;> rfl
  rw [toServe, toServe, hoffers, hw, State.accepted, acceptInstr_reqChan]
  rfl

/-- What a move without a reset can make of an idle PTW: nothing, an offer of the requester, ACCEPT (R78), or a whole
request (R9). -/
inductive State.IdleMove (s : State) : State → Prop
  | stay : s.IdleMove s
  | offer : s.IdleMove s.offer
  | accept {w : ReqWord} (hw : s.reqChan = some w) : s.IdleMove (s.accepted w)
  | run {w : ReqWord} (hw : s.reqChan = some w) : s.IdleMove (s.accepted w).runHeld

theorem idleMove_acceptStep (s : State) : s.IdleMove s.acceptStep := by
  rcases acceptStep_cases s with ⟨w, hw, h⟩ | ⟨_, h⟩ <;> rw [h]
  · exact .accept hw
  · exact .stay

theorem idleMove_transact {s : State} (hst : s.st = .idle) : s.IdleMove (s.afterMove .transact) := by
  rcases Option.eq_none_or_eq_some s.reqChan with hw | ⟨w, hw⟩
  · rw [afterMove_transact_quiet hst hw]
    exact .offer
  · rw [afterMove_transact_request hst hw]
    exact .run hw

theorem idleMove_afterMove {m : Move} {s : State} (hco : Coherent s) (hst : s.st = .idle) (hm : noReset m = true) :
    s.IdleMove (s.afterMove m) := by
  have hptw : ∀ {t}, t = s.acceptStep → s.IdleMove t := fun h => h ▸ idleMove_acceptStep s
  have hwait : ∀ {t}, t = s → s.IdleMove t := fun h => h ▸ .stay
  cases m with
  | transact => exact idleMove_transact hst
  | offer => exact .offer
  | ptw => exact hptw (ptwStep_of_idle hst)
  | memAnswer =>
    have hchan : s.memChan = .empty := memChan_empty_of_coherent hco (by simp [hst])
    exact hwait (memAnswer_nothing (by simp [hchan]))
  | take => exact hwait (respond_of_not_resp (by simp [hst]))
  | reset => cases hm
  | edge p => exact hptw (clockEdge_of_idle (by simpa [noReset] using hm) hst)

section serves

variable {s t : State} {served : List ReqWord} {w : ReqWord}

theorem State.ServedIdle.offer (h : s.ServedIdle served t) : s.ServedIdle served t.offer where
  idle := t.offer_st.trans h.idle
  serve := by rw [toServe_offer, h.serve]
  taken := t.offer_taken.trans h.taken
  readLog := t.offer_readLog.trans h.readLog

theorem State.ServedIdle.accepted (h : s.ServedIdle served t) (himg : t.img = s.img) (hw : t.reqChan = some w) :
    s.ServedBusy served w (t.accepted w) where
  busy := accepted_st w t
  serve := by rw [h.serve, toServe_accepted hw]
  taken := (acceptInstr_taken _ _).trans h.taken
  sent := by rw [← h.readLog, State.accepted, acceptInstr_readLog]
  response := by rw [← himg, State.accepted, runHeld_acceptInstr_taken, acceptInstr_taken]
  readLog := by rw [← h.readLog, ← himg, State.accepted, runHeld_acceptInstr_readLog]

theorem State.ServedBusy.runHeld (h : s.ServedBusy served w t) (hco : Coherent t) :
    s.ServedIdle (served ++ [w]) t.runHeld where
  idle := by rw [runHeld_eq hco h.busy]
  serve := by rw [h.serve, toServe_runHeld, List.append_assoc]; rfl
  taken := by rw [h.response, h.taken, responsesOf_concat, List.append_assoc]
  readLog := by rw [h.readLog, readsOfAll_concat, List.append_assoc]

theorem State.ServedBusy.sameRequest {t' : State} (h : s.ServedBusy served w t) (hco : Coherent t)
    (hsame : t.SameRequest t') (hgrow : t.RecordsGrow t') : s.ServedBusy served w t' where
  busy := hsame.busy hco h.busy
  serve := by rw [h.serve, hsame.serve]
  taken := hsame.taken.trans h.taken
  sent := h.sent.trans hgrow.readLog
  response := by rw [hsame.runHeld, hsame.taken]; exact h.response
  readLog := by rw [hsame.runHeld]; exact h.readLog

end serves

theorem State.ServedIdle.serves_of_idleMove {s t u : State} {served : List ReqWord} (h : s.ServedIdle served t)
    (hco : Coherent t) (himg : t.img = s.img) (hmove : t.IdleMove u) : s.Serves u := by
  cases hmove with
  | stay => exact ⟨served, Or.inl h⟩
  | offer => exact ⟨served, Or.inl h.offer⟩
  | accept hw => exact ⟨served, Or.inr ⟨_, h.accepted himg hw⟩⟩
  | run hw => exact ⟨_, Or.inl ((h.accepted himg hw).runHeld (coherent_accepted _ hco h.idle))⟩

theorem serves_afterMove {m : Move} {s t : State} (h : s.Serves t) (hco : Coherent t) (himg : t.img = s.img)
    (hm : noReset m = true) : s.Serves (t.afterMove m) := by
  obtain ⟨served, h | ⟨w, h⟩⟩ := h
  · exact h.serves_of_idleMove hco himg (idleMove_afterMove hco h.idle hm)
  · rcases afterMove_of_held hco h.busy hm with he | he
    · rw [he]
      exact ⟨served ++ [w], Or.inl (h.runHeld hco)⟩
    · exact ⟨served, Or.inr ⟨w, h.sameRequest hco he (recordsGrow_afterMove m t)⟩⟩

/-- The invariant of a schedule without a reset, by induction on its moves. -/
theorem serves_afterMoves {ms : List Move} {s t : State} (h : s.Serves t) (hco : Coherent t) (himg : t.img = s.img)
    (hms : ms.all noReset = true) : s.Serves (t.afterMoves ms) := by
  induction ms generalizing t with
  | nil => exact h
  | cons m ms ih =>
    obtain ⟨hm, hms⟩ := Bool.and_eq_true_iff.mp hms
    exact ih (serves_afterMove h hco himg hm) (coherent_afterMove m hco) ((afterMove_img m t).trans himg) hms

theorem serves_refl {s : State} (hst : s.st = .idle) : s.Serves s :=
  ⟨[], Or.inl ⟨hst, rfl, (List.append_nil _).symm, (List.append_nil _).symm⟩⟩

/-- Inside a request, what has been sent of it is a beginning of its reads, for its completion only adds to them. -/
theorem State.ServedBusy.exists_sent {s t : State} {served : List ReqWord} {w : ReqWord} (h : s.ServedBusy served w t) :
    ∃ sent, sent <+: readsOf s.img (decode w) ∧ t.readLog = s.readLog ++ readsOfAll s.img served ++ sent := by
  obtain ⟨sent, hsent⟩ := h.sent
  have hgrow := (recordsGrow_runHeld t).readLog
  rw [h.readLog, ← hsent, List.prefix_append_right_inj] at hgrow
  exact ⟨sent, hgrow, hsent.symm⟩

/-- Settles O52: an idle outcome and a busy one by the invariant's two cases. -/
theorem everyScheduleGivesTheResponses : Obligations.EveryScheduleGivesTheResponses := by
  intro ms s t hco hst hms ht
  rw [follow_eq] at ht
  obtain rfl := Host.Outcome.next.inj ht
  obtain ⟨served, h | ⟨w, h⟩⟩ := serves_afterMoves (serves_refl hst) hco rfl hms
  · exact ⟨served, h.taken, fun _ => ⟨h.serve, h.readLog⟩, fun hbusy => absurd h.idle hbusy⟩
  · obtain ⟨sent, hprefix, hlog⟩ := h.exists_sent
    exact ⟨served, h.taken, fun hidle => absurd hidle h.busy, fun _ => ⟨w, sent, h.serve, hprefix, hlog⟩⟩

end Sys2Proof.Machine
end

section
/-! When a request ends in Fault (R86, R98): a TRANSLATE exactly by a cause at a level it reaches, with overflow only at
the root's level; and no state leaves the machine without a next one (R85). -/

namespace Sys2Proof

/-- The response of a Fault is that of no other result (R55). -/
theorem Result.toRsp_eq_fault_iff (r : Result) : r.toRsp = { fault := true, data := 0 } ↔ r = .fault := by
  cases r <;> simp [Result.toRsp]

namespace Machine

open Sys2Proof.Safety

/-! ### Overflow -/

theorem nextBase_toNat_le (e : Word) : (nextBase e).toNat ≤ baseMask.toNat := by
  rw [nextBase, BitVec.toNat_and]
  exact Nat.and_le_right

/-- A base taken from an entry leaves room for every index: the mask clears its bits 63:52 (R73). -/
theorem entryNumber_nextBase_lt (va : Word) (k : Level) (e : Word) : entryNumber va k (nextBase e) < 2 ^ 64 := by
  have hbase : (nextBase e).toNat ≤ 0xFFFFFFFFFF000 := nextBase_toNat_le e
  have hidx := (index va k).isLt
  rw [entryNumber]
  omega

/-- Only the root, which no mask has cut, can make the entry address overflow (R35, R70). -/
theorem level_of_reaches_of_overflow {va root : Word} {img : Memory} {k : Level} {base : Word}
    (here : Reaches va root img k base) (h : 2 ^ 64 ≤ entryNumber va k base) : k = .pml4 := by
  cases here with
  | start => rfl
  | @down _ _ _ e => exact absurd (entryNumber_nextBase_lt va k e) (Nat.not_lt.mpr h)

/-! ### Fault -/

/-- A walk ends in Fault exactly by a cause at a level it reaches, for the only other end is a success (R75). -/
theorem translateVa_eq_fault_iff (va root : Word) (img : Memory) :
    translateVa va root img = .fault ↔
      ∃ k base c, Reaches va root img k base ∧ causeHolds va img k base c := by
  simp only [causeHolds_iff_visit_cause]
  constructor
  · intro h
    rcases cause_or_lastEntry va root img with hcause | ⟨base, a, e, here, hv⟩
    · exact hcause
    · obtain ⟨before, _, hw⟩ := fullWalk_of_lastEntry here hv
      rw [translateVa, hw] at h
      cases h
  · rintro ⟨k, base, c, here, hc⟩
    obtain ⟨before, draws, _, hw⟩ := fullWalk_of_cause here hc
    rw [translateVa, hw]
    rfl

/-- Settles O17: the response carries the walk's result, and every base but the root comes from a masked entry. -/
theorem translateFaultIffCause : Obligations.TranslateFaultIffCause := by
  intro va root img
  refine ⟨?_, fun k base here h => level_of_reaches_of_overflow here h⟩
  rw [responseOf, Result.toRsp_eq_fault_iff]
  exact translateVa_eq_fault_iff va root img

/-! ### Every step answers -/

/-- Settles O42: every move has a next state, whatever the state. -/
theorem everyStepAnswers : Obligations.EveryStepAnswers :=
  fun s => ⟨s.dropMove.afterMove s.nextMove, step_eq_afterMove s⟩

end Machine

end Sys2Proof
end

section
/-! Reset and waiting (R99 to R101, R106, R107, R109): what a reset keeps, where a request goes that comes to a busy
PTW, and the two waits that end only by another agent's move. -/

namespace Sys2Proof.Machine

open Sys2Proof.Safety

/-! ### Reset -/

theorem clockEdge_of_rst {p : Pins} (hp : p.rst = true) (s : State) : s.clockEdge p = s.resetPtw :=
  if_pos hp

/-- A reset and an edge with `rst` = 1 are the same step (R99). -/
theorem step_of_reset {s : State} {p : Pins} (h : s.nextMove = .reset ∨ s.nextMove = .edge p ∧ p.rst = true) :
    step s = .next s.dropMove.resetPtw := by
  rcases h with hmove | ⟨hmove, hp⟩
  · exact step_of_nextMove hmove
  · rw [← clockEdge_of_rst hp]
    exact step_of_nextMove hmove

/-- Settles O38: the reset writes the registers of the block and empties the memory channel, and nothing else. -/
theorem resetDropsHeldRequest : Obligations.ResetDropsHeldRequest :=
  fun s _ h => ⟨s.dropMove.resetPtw, step_of_reset h, rfl, rfl, rfl, rfl, rfl, rfl, rfl, rfl, rfl, rfl⟩

/-- Without a request, a read or a response no agent has anything to do (R100). -/
theorem runMove_reset_state (m : Move) : runMove m State.reset = .next State.reset := by
  cases m with
  | edge p =>
    have hedge : State.reset.clockEdge p = State.reset := by
      cases hp : p.rst with
      | true => exact clockEdge_of_rst hp State.reset
      | false => exact clockEdge_of_idle hp rfl
    exact congrArg Host.Outcome.next hedge
  | _ => rfl

/-- Settles O37. -/
theorem resetStateIsIdleAndQuiet : Obligations.ResetStateIsIdleAndQuiet :=
  ⟨rfl, rfl, rfl, rfl, rfl, rfl, runMove_reset_state, State.resetPtw_img⟩

/-! ### A request that comes to a busy PTW -/

/-- Settles O15: a busy PTW holds the request back, on the channel if that is free. -/
theorem busyRequestWaitsOnChannel : Obligations.BusyRequestWaitsOnChannel := by
  intro s i hst
  have hexec : exec i s = .next (s.hold (encode i)) := by
    rcases exec_cases i s with ⟨hidle, _⟩ | ⟨_, he⟩
    · exact absurd hidle hst
    · exact he
  rw [hexec]
  rcases hold_cases (encode i) s with ⟨hnone, hh⟩ | ⟨⟨v, hsome⟩, hh⟩ <;> rw [hh]
  · exact ⟨fun _ => rfl, fun hne => absurd hnone hne⟩
  · exact ⟨fun hnone => by simp [hsome] at hnone, fun _ => rfl⟩

/-! ### The request channel of a busy PTW -/

theorem runHeld_reqChan (s : State) : s.runHeld.reqChan = s.reqChan := by
  rw [State.runHeld, State.respond_reqChan, ← finishHeld_withQueue_self]
  rfl

/-- Only ACCEPT takes a request off the channel. -/
theorem ptwStep_reqChan_of_busy {s : State} (hst : s.st ≠ .idle) : s.ptwStep.reqChan = s.reqChan := by
  cases h : s.st with
  | idle => exact absurd h hst
  | issue => rw [ptwStep_of_issue h, issueStep_reqChan]
  | wait => rw [ptwStep_of_wait h, takeStep_reqChan]
  | resp => rw [ptwStep_of_resp h]

theorem clockEdge_reqChan_of_busy {s : State} (hst : s.st ≠ .idle) (p : Pins) :
    (s.clockEdge p).reqChan = s.reqChan := by
  rcases clockEdge_cases p s with ⟨_, h⟩ | ⟨_, h | h | ⟨_, h⟩⟩ <;> rw [h]
  · exact s.resetPtw_reqChan
  · exact ptwStep_reqChan_of_busy hst
  · exact s.respond_reqChan

/-- Whatever the move, a request on the channel of a busy PTW stays there. -/
theorem afterMove_reqChan_of_busy (m : Move) {s : State} {w : ReqWord} (hst : s.st ≠ .idle) (hw : s.reqChan = some w) :
    (s.afterMove m).reqChan = some w := by
  rw [← hw]
  cases m with
  | transact => rw [afterMove_transact_held hst, runHeld_reqChan]
  | offer => exact congrArg State.reqChan (offer_of_taken (by simp [hw]))
  | ptw => exact ptwStep_reqChan_of_busy hst
  | memAnswer => exact s.memAnswer_reqChan
  | take => exact s.respond_reqChan
  | reset => exact s.resetPtw_reqChan
  | edge p => exact clockEdge_reqChan_of_busy hst p

/-- Settles O46: a step is a move made with that move off the agenda. -/
theorem offeredRequestStays : Obligations.OfferedRequestStays := by
  intro s t w hst hw h
  rw [eq_afterMove_of_step h]
  exact afterMove_reqChan_of_busy s.nextMove (s := s.dropMove) hst hw

/-! ### A run whose moves are all of one kind -/

/-- The next move is of that kind, and so are those that follow it. -/
theorem onlyMoves_succ {p : Move → Bool} {n : Nat} {s : State} (h : onlyMoves p (n + 1) s) :
    p s.nextMove = true ∧ onlyMoves p n (s.dropMove.afterMove s.nextMove) := by
  obtain ⟨hagenda, hlong⟩ := h
  have ha : (s.dropMove.afterMove s.nextMove).agenda = s.schedule.tail := afterMove_agenda _ _
  have hc : (s.dropMove.afterMove s.nextMove).cycle = s.cycle := afterMove_cycle _ _
  rw [onlyMoves, ha, hc, State.nextMove, State.schedule]
  cases hs : s.agenda with
  | cons m ms =>
    rw [hs, List.all_cons, Bool.and_eq_true] at hagenda
    rw [hs] at hlong
    exact ⟨hagenda.1, hagenda.2, hlong.imp_left Nat.le_of_succ_le_succ⟩
  | nil =>
    obtain ⟨hne, hall⟩ : s.cycle ≠ [] ∧ s.cycle.all p = true := hlong.resolve_left (by simp [hs])
    cases hcyc : s.cycle with
    | nil => exact absurd hcyc hne
    | cons m ms =>
      have hall' := hall
      rw [hcyc, List.all_cons, Bool.and_eq_true] at hall'
      exact ⟨hall'.1, hall'.2, Or.inr ⟨by simp, hcyc ▸ hall⟩⟩

/-- What every move of one kind keeps, every run of such moves keeps, by induction on its steps. -/
theorem run_keeps_of_onlyMoves {p : Move → Bool} {I : State → Prop} (hdrop : ∀ s, I s → I s.dropMove)
    (hmove : ∀ m s, p m = true → I s → I (s.afterMove m)) {n : Nat} {s t : State} (hs : I s)
    (hp : onlyMoves p n s) (h : core.run n s = .next t) : I t := by
  induction n generalizing s with
  | zero =>
    obtain rfl := Host.Outcome.next.inj h
    exact hs
  | succ n ih =>
    obtain ⟨hfirst, hrest⟩ := onlyMoves_succ hp
    rw [core_run_succ] at h
    exact ih (hmove _ _ hfirst (hdrop s hs)) hrest h

/-! ### The two waits -/

/-- The block in `t` shows what it shows in `s`, with no response taken and no read sent since, and a request that was
offered is still offered. -/
structure State.Stalled (s t : State) : Prop where
  st : t.st = s.st
  rspChan : t.rspChan = s.rspChan
  taken : t.taken = s.taken
  readLog : t.readLog = s.readLog
  reqChan : ∀ w, s.reqChan = some w → t.reqChan = some w

theorem State.Stalled.refl (s : State) : s.Stalled s :=
  ⟨rfl, rfl, rfl, rfl, fun _ => id⟩

theorem State.Stalled.trans {s t u : State} (h : s.Stalled t) (h' : t.Stalled u) : s.Stalled u :=
  ⟨h'.st.trans h.st, h'.rspChan.trans h.rspChan, h'.taken.trans h.taken, h'.readLog.trans h.readLog,
    fun w hw => h'.reqChan w (h.reqChan w hw)⟩

theorem stalled_dropMove (s : State) : s.Stalled s.dropMove :=
  ⟨rfl, rfl, rfl, rfl, fun _ => id⟩

theorem stalled_offer (s : State) : s.Stalled s.offer where
  st := s.offer_st
  rspChan := by simp [State.rspChan]
  taken := s.offer_taken
  readLog := s.offer_readLog
  reqChan := fun w hw => by rw [offer_of_taken (by simp [hw]), hw]

theorem stalled_memAnswer (s : State) : s.Stalled s.memAnswer where
  st := s.memAnswer_st
  rspChan := by simp [State.rspChan]
  taken := s.memAnswer_taken
  readLog := s.memAnswer_readLog
  reqChan := fun w hw => s.memAnswer_reqChan.trans hw

/-- While the memory agent does not answer, every move is a wait or an offer of the requester (R109). -/
theorem afterMove_of_unanswered {m : Move} {s : State} {a : Word} (hst : s.st = .wait) (hmem : s.memChan = .request a)
    (hm : (noReset m && !answersRead m) = true) : s.afterMove m = s ∨ s.afterMove m = s.offer := by
  have htake : s.takeStep = s := takeStep_noAnswer (by simp [hmem])
  cases m with
  | transact => cases hm
  | offer => exact Or.inr rfl
  | ptw => exact Or.inl ((ptwStep_of_wait hst).trans htake)
  | memAnswer => cases hm
  | take => exact Or.inl (respond_of_not_resp (by simp [hst]))
  | reset => cases hm
  | edge p =>
    have hrst : p.rst = false := by simpa [noReset, answersRead] using hm
    exact Or.inl ((clockEdge_of_wait hrst hst).trans htake)

/-- While the requester does not take the response, every move is a wait, an offer of the requester or an
answer of the memory agent (R107). -/
theorem afterMove_of_untaken {m : Move} {s : State} (hst : s.st = .resp)
    (hm : (noReset m && !takesResponse m) = true) :
    s.afterMove m = s ∨ s.afterMove m = s.offer ∨ s.afterMove m = s.memAnswer := by
  cases m with
  | transact => cases hm
  | offer => exact Or.inr (Or.inl rfl)
  | ptw => exact Or.inl (ptwStep_of_resp hst)
  | memAnswer => exact Or.inr (Or.inr rfl)
  | take => cases hm
  | reset => cases hm
  | edge p =>
    obtain ⟨hrst, hready⟩ : p.rst = false ∧ p.rspReady = false := by simpa [noReset, takesResponse] using hm
    have hedge := clockEdge_of_resp hrst hst
    rw [hready] at hedge
    exact Or.inl hedge

/-- Settles O47: the wait, and the request that is waited for, last through every move that gives no answer. -/
theorem unansweredReadWaits : Obligations.UnansweredReadWaits := by
  intro n s t a hst hmem hp h
  have hkeep : s.Stalled t ∧ t.memChan = .request a := by
    refine run_keeps_of_onlyMoves (I := fun u => s.Stalled u ∧ u.memChan = .request a) ?_ ?_ ⟨.refl s, hmem⟩ hp h
    · exact fun u ⟨hu, hmu⟩ => ⟨hu.trans (stalled_dropMove u), hmu⟩
    · rintro m u hm ⟨hu, hmu⟩
      rcases afterMove_of_unanswered (hu.st.trans hst) hmu hm with he | he <;> rw [he]
      · exact ⟨hu, hmu⟩
      · exact ⟨hu.trans (stalled_offer u), u.offer_memChan.trans hmu⟩
  obtain ⟨hstall, hmt⟩ := hkeep
  exact ⟨hstall.st.trans hst, hmt, hstall.taken, hstall.readLog, hstall.reqChan⟩

/-- Settles O48: the response lasts through every move that does not take it. -/
theorem untakenResponseHolds : Obligations.UntakenResponseHolds := by
  intro n s t hst hp h
  have hstall : s.Stalled t := by
    refine run_keeps_of_onlyMoves (fun u hu => hu.trans (stalled_dropMove u)) ?_ (.refl s) hp h
    intro m u hm hu
    rcases afterMove_of_untaken (hu.st.trans hst) hm with he | he | he <;> rw [he]
    · exact hu
    · exact hu.trans (stalled_offer u)
    · exact hu.trans (stalled_memAnswer u)
  exact ⟨hstall.st.trans hst, hstall.rspChan, hstall.taken, hstall.reqChan⟩

end Sys2Proof.Machine
end

section
/-! A run over a list of requests (R106, R112): between two requests the block is at rest with the first ones served, and
each further request, by a transaction or by micro-steps, leads to the next such state. -/

namespace Sys2Proof.Machine

open Sys2Proof.Safety

/-- At rest between two requests of a run from `s`: `served` are answered, the others are with the requester. -/
structure State.AtRest (s : State) (served : List ReqWord) (t : State) : Prop extends State.ServedIdle s served t where
  img : t.img = s.img
  reqChan : t.reqChan = none
  memChan : t.memChan = .empty

theorem atRest_self {s : State} (hst : s.st = .idle) (hq : s.reqChan = none) (hm : s.memChan = .empty) :
    s.AtRest [] s where
  idle := hst
  serve := rfl
  taken := (List.append_nil _).symm
  readLog := (List.append_nil _).symm
  img := rfl
  reqChan := hq
  memChan := hm

/-! ### One request -/

@[simp] theorem accepted_img (w : ReqWord) (s : State) : (s.accepted w).img = s.img :=
  acceptInstr_img _ _

@[simp] theorem accepted_reqChan (w : ReqWord) (s : State) : (s.accepted w).reqChan = none :=
  acceptInstr_reqChan _ _

/-- An accepted request, run to its response, leaves the PTW idle and the memory channel as it was. -/
theorem runHeld_accepted (w : ReqWord) (s : State) :
    (s.accepted w).runHeld.st = .idle ∧ (s.accepted w).runHeld.memChan = s.memChan := by
  unfold State.accepted
  cases decode w with
  | extract va root => rw [State.acceptInstr, runHeld_acceptExtract]; exact ⟨rfl, rfl⟩
  | translate va root => rw [State.acceptInstr, runHeld_acceptTranslate]; exact ⟨rfl, rfl⟩

theorem toServe_of_noRequest {s : State} (h : s.reqChan = none) : toServe s = s.offers := by
  rw [toServe, h]
  rfl

/-- The next request, offered, accepted and run to its response. -/
def State.runNext (w : ReqWord) (s : State) : State :=
  (s.offer.accepted w).runHeld

section next

variable {s t : State} {served ws : List ReqWord} {w : ReqWord}

theorem offer_reqChan_of_next (hq : t.reqChan = none) (ho : t.offers = w :: ws) : t.offer.reqChan = some w := by
  rw [offer_of_empty hq ho]

theorem State.AtRest.runNext (h : s.AtRest served t) (ho : t.offers = w :: ws) :
    s.AtRest (served ++ [w]) (t.runNext w) := by
  have himg : t.offer.img = s.img := t.offer_img.trans h.img
  have hbusy := h.toServedIdle.offer.accepted himg (offer_reqChan_of_next h.reqChan ho)
  obtain ⟨hidle, hmem⟩ := runHeld_accepted w t.offer
  exact
    { idle := hidle
      serve := by rw [hbusy.serve, State.runNext, toServe_runHeld, List.append_assoc]; rfl
      taken := by rw [State.runNext, hbusy.response, hbusy.taken, responsesOf_concat, List.append_assoc]
      readLog := by rw [State.runNext, hbusy.readLog, readsOfAll_concat, List.append_assoc]
      img := (runHeld_img _).trans ((accepted_img w _).trans himg)
      reqChan := (runHeld_reqChan _).trans (accepted_reqChan w _)
      memChan := hmem.trans (t.offer_memChan.trans h.memChan) }

/-- The requests left are those that were left before, without the one just run. -/
theorem State.AtRest.runNext_offers (h : s.AtRest served t) (ho : t.offers = w :: ws) : (t.runNext w).offers = ws := by
  have hleft : served ++ [w] ++ (t.runNext w).offers = served ++ [w] ++ ws := by
    rw [← toServe_of_noRequest (h.runNext ho).reqChan, ← (h.runNext ho).serve, h.serve,
      toServe_of_noRequest h.reqChan, ho, List.append_assoc]
    rfl
  exact List.append_cancel_left hleft

end next

/-- What a run over `ws` that has come to rest with nothing left to offer has done. -/
theorem State.AtRest.outcome {img : Memory} {ws served : List ReqWord} {t : State}
    (h : ({ State.reset with img := img, offers := ws } : State).AtRest served t) (ho : t.offers = []) :
    t.st = .idle ∧ t.reqChan = none ∧ t.memChan = .empty ∧ t.offers = [] ∧ t.img = img ∧
      t.taken = ws.map (fun w => responseOf img (decode w)) ∧
      t.readLog = (ws.map fun w => readsOf img (decode w)).flatten := by
  have hall : ws = served ++ toServe t := h.serve
  rw [toServe_of_noRequest h.reqChan, ho, List.append_nil] at hall
  subst hall
  exact ⟨h.idle, h.reqChan, h.memChan, ho, h.img, h.taken, h.readLog⟩

/-! ### Prompt agents -/

/-- With agenda and cycle empty a step is a transaction (log 1). -/
theorem core_run_prompt {s : State} (ha : s.agenda = []) (hc : s.cycle = []) (n : Nat) :
    core.run (n + 1) s = core.run n (s.afterMove .transact) := by
  have hplan : s = s.plan [] [] := by rw [← plan_self s, ha, hc]; rfl
  have hmove : s.nextMove = .transact := by rw [hplan]; rfl
  have hdrop : s.dropMove = s := by rw [hplan]; rfl
  rw [core_run_succ, hmove, hdrop]

/-- Two transactions run the next request: one offers it, one accepts it and brings its response (R9). -/
theorem afterMove_transact_runNext {t : State} {w : ReqWord} {ws : List ReqWord} (hst : t.st = .idle)
    (hq : t.reqChan = none) (ho : t.offers = w :: ws) :
    (t.afterMove .transact).afterMove .transact = t.runNext w := by
  rw [afterMove_transact_quiet hst hq]
  exact afterMove_transact_request (t.offer_st.trans hst) (offer_reqChan_of_next hq ho)

/-- Two steps a request, by induction on the requests left. -/
theorem core_run_atRest {ws served : List ReqWord} {s t : State} (h : s.AtRest served t) (ho : t.offers = ws)
    (ha : t.agenda = []) (hc : t.cycle = []) :
    ∃ served' u, core.run (2 * ws.length) t = .next u ∧ s.AtRest served' u ∧ u.offers = [] := by
  induction ws generalizing served t with
  | nil => exact ⟨served, t, rfl, h, ho⟩
  | cons w ws ih =>
    have hnext := afterMove_transact_runNext h.idle h.reqChan ho
    have ha1 : (t.afterMove .transact).agenda = [] := (afterMove_agenda _ _).trans ha
    have hc1 : (t.afterMove .transact).cycle = [] := (afterMove_cycle _ _).trans hc
    have ha2 : (t.runNext w).agenda = [] := by rw [← hnext, afterMove_agenda, ha1]
    have hc2 : (t.runNext w).cycle = [] := by rw [← hnext, afterMove_cycle, hc1]
    obtain ⟨served', u, hrun, hrest, hnone⟩ := ih (h.runNext ho) (h.runNext_offers ho) ha2 hc2
    refine ⟨served', u, ?_, hrest, hnone⟩
    calc core.run (2 * (w :: ws).length) t
        = core.run (2 * ws.length + 1) (t.afterMove .transact) := core_run_prompt ha hc _
      _ = core.run (2 * ws.length) (t.runNext w) := by rw [core_run_prompt ha1 hc1, hnext]
      _ = .next u := hrun

/-- Settles O54. -/
theorem batchAnswersInOrder : Obligations.BatchAnswersInOrder := by
  intro img ws
  have hstart := atRest_self (s := { State.reset with img := img, offers := ws }) rfl rfl rfl
  obtain ⟨served, t, hrun, hrest, hnone⟩ := core_run_atRest hstart rfl rfl rfl
  exact ⟨t, hrun, hrest.outcome hnone⟩

/-! ### Micro-steps -/

/-- An offer and the prompt schedule run the next request (R83, R110). -/
theorem State.AtRest.afterMoves_runNext {s t : State} {served ws : List ReqWord} {w : ReqWord} (h : s.AtRest served t)
    (himg : s.img.wf = true) (ho : t.offers = w :: ws) :
    t.afterMoves (.offer :: promptSchedule) = t.runNext w := by
  have hco : Coherent t := coherent_of_idle (by rw [h.img, himg]) h.idle h.memChan
  exact afterMoves_promptSchedule (coherent_offer hco) (t.offer_st.trans h.idle) (offer_reqChan_of_next h.reqChan ho)

/-- One offer and one prompt schedule a request, by induction on the requests left. -/
theorem afterMoves_batchSchedule {ws served : List ReqWord} {s t : State} (h : s.AtRest served t)
    (himg : s.img.wf = true) (ho : t.offers = ws) :
    ∃ served', s.AtRest served' (t.afterMoves (batchSchedule ws.length)) ∧
      (t.afterMoves (batchSchedule ws.length)).offers = [] := by
  induction ws generalizing served t with
  | nil => exact ⟨served, h, ho⟩
  | cons w ws ih =>
    have hsplit : batchSchedule (w :: ws).length = (.offer :: promptSchedule) ++ batchSchedule ws.length := by
      rw [batchSchedule, List.length_cons, List.replicate_succ, List.flatten_cons]
      rfl
    rw [hsplit, afterMoves_append, h.afterMoves_runNext himg ho]
    exact ih (h.runNext ho) (h.runNext_offers ho)

/-- Settles O55: the agenda, used up at the end, is no part of the outcome. -/
theorem batchBySequencer : Obligations.BatchBySequencer := by
  intro img ws himg
  have hstart := atRest_self (s := { State.reset with img := img, offers := ws }) rfl rfl rfl
  obtain ⟨served, hrest, hnone⟩ := afterMoves_batchSchedule hstart himg rfl
  exact ⟨_, follow_eq _ _, hrest.outcome hnone⟩

end Sys2Proof.Machine
end

section
/-! How far a request is from its response (R110): a rank of states that every micro-step lowers, so that a move which
lowers it is a step and no wait. -/

namespace Sys2Proof.Machine

open Sys2Proof.Safety

/-! ### The rank -/

/-- A bound on the steps of the PTW and the memory agent up to RESP: three a level, and 13 for a request not accepted. -/
def State.movesLeft (s : State) : Nat :=
  match s.st, s.memChan with
  | .idle, _ => 13
  | .issue, _ => 3 * levelsAfter s.lvl + 3
  | .wait, .request _ => 3 * levelsAfter s.lvl + 2
  | .wait, _ => 3 * levelsAfter s.lvl + 1
  | .resp, _ => 0

section values

variable {s : State}

theorem movesLeft_of_idle (h : s.st = .idle) : s.movesLeft = 13 := by
  simp only [State.movesLeft, h]

theorem movesLeft_of_issue (h : s.st = .issue) : s.movesLeft = 3 * levelsAfter s.lvl + 3 := by
  simp only [State.movesLeft, h]

theorem movesLeft_of_request {a : Word} (h : s.st = .wait) (hm : s.memChan = .request a) :
    s.movesLeft = 3 * levelsAfter s.lvl + 2 := by
  simp only [State.movesLeft, h, hm]

theorem movesLeft_of_answer {m : Mrsp} (h : s.st = .wait) (hm : s.memChan = .answer m) :
    s.movesLeft = 3 * levelsAfter s.lvl + 1 := by
  simp only [State.movesLeft, h, hm]

theorem movesLeft_of_resp (h : s.st = .resp) : s.movesLeft = 0 := by
  simp only [State.movesLeft, h]

theorem plan_st (a c : List Move) : (s.plan a c).st = s.st := rfl

theorem plan_movesLeft (a c : List Move) : (s.plan a c).movesLeft = s.movesLeft := rfl

end values

/-! ### Each step lowers it -/

section steps

variable {s : State}

theorem movesLeft_accepted_lt (w : ReqWord) (hst : s.st = .idle) : (s.accepted w).movesLeft < s.movesLeft := by
  rw [movesLeft_of_idle hst]
  rcases accepted_cases w s with h | ⟨h, hl⟩
  · rw [movesLeft_of_resp h]
    decide
  · rw [movesLeft_of_issue h, hl]
    decide

theorem movesLeft_issueStep_lt (hst : s.st = .issue) : s.issueStep.movesLeft < s.movesLeft := by
  rw [movesLeft_of_issue hst]
  rcases issueStep_cases s with ⟨_, h⟩ | ⟨a, _, _, h⟩ <;> rw [h]
  · rw [movesLeft_of_resp s.raiseFault_st]
    omega
  · exact Nat.lt_succ_self _

/-- An answer puts an answer where the read request was. -/
theorem movesLeft_memAnswer_lt {a : Word} (hst : s.st = .wait) (hm : s.memChan = .request a) :
    s.memAnswer.movesLeft < s.movesLeft := by
  obtain ⟨m, hanswer⟩ := (memAnswer_memChan_cases s).resolve_right (by simp [hm])
  rw [movesLeft_of_request hst hm, movesLeft_of_answer (s.memAnswer_st.trans hst) hanswer, s.memAnswer_lvl]
  exact Nat.lt_succ_self _

theorem movesLeft_takeStep_lt {m : Mrsp} (hst : s.st = .wait) (hm : s.memChan = .answer m) :
    s.takeStep.movesLeft < s.movesLeft := by
  rw [movesLeft_of_answer hst hm, takeStep_answer hm]
  rcases takeAnswer_cases m { s with memChan := .empty } with ⟨_, h⟩ | ⟨_, _, ⟨k, hk, h⟩ | ⟨_, h⟩⟩ <;> rw [h]
  · exact Nat.succ_pos _
  · have hl : nextLevel s.lvl = some k := hk
    rw [movesLeft_of_issue rfl]
    show 3 * levelsAfter k + 3 < _
    rcases nextLevel_cases s.lvl with ⟨_, hlast, _⟩ | ⟨hbump, hafter⟩
    · simp [hl] at hlast
    · rw [hafter, ← Option.some.inj (hl.symm.trans hbump)]
      omega
  · exact Nat.succ_pos _

/-- Where the PTW has something to do and is not waiting for an answer, its own step lowers the rank. -/
theorem movesLeft_ptwStep_lt (hco : Coherent s) (hresp : s.st ≠ .resp) (hmem : ∀ a, s.memChan ≠ .request a)
    (hidle : s.st = .idle → ∃ w, s.reqChan = some w) : s.ptwStep.movesLeft < s.movesLeft := by
  cases hst : s.st with
  | idle =>
    obtain ⟨w, hw⟩ := hidle hst
    rw [ptwStep_of_idle hst, acceptStep_of_request hw]
    exact movesLeft_accepted_lt w hst
  | issue =>
    rw [ptwStep_of_issue hst]
    exact movesLeft_issueStep_lt hst
  | wait =>
    rw [ptwStep_of_wait hst]
    cases hm : s.memChan with
    | empty =>
      have hflight := hco.inFlight
      simp only [inFlightOk, hm] at hflight
      exact absurd hst hflight
    | request a => exact absurd hm (hmem a)
    | answer m => exact movesLeft_takeStep_lt hst hm
  | resp => exact absurd hst hresp

end steps

end Sys2Proof.Machine
end

section
/-! The exact micro-steps and reads of a request (R110): the schedule of one round a level that is read, every move of
which lowers the rank. -/

namespace Sys2Proof.Machine

open Sys2Proof.Safety

/-! ### Moves that each lower the rank -/

/-- Each of these moves, made in order, brings the request nearer to its response. -/
def State.Advances : List Move → State → Prop
  | [], _ => True
  | m :: ms, s => (s.afterMove m).movesLeft < s.movesLeft ∧ (s.afterMove m).Advances ms

theorem State.Advances.append {ms ms' : List Move} {s : State} (h : s.Advances ms)
    (h' : (s.afterMoves ms).Advances ms') : s.Advances (ms ++ ms') := by
  induction ms generalizing s with
  | nil => exact h'
  | cons m ms ih =>
    obtain ⟨hfirst, hrest⟩ := h
    exact ⟨hfirst, ih hrest h'⟩

theorem State.Advances.lt {ms : List Move} {s : State} (h : s.Advances ms) {n : Nat} (hn : n < ms.length) :
    (s.afterMoves (ms.take (n + 1))).movesLeft < (s.afterMoves (ms.take n)).movesLeft := by
  induction ms generalizing s n with
  | nil => exact absurd hn (Nat.not_lt_zero n)
  | cons m ms ih =>
    obtain ⟨hfirst, hrest⟩ := h
    cases n with
    | zero => exact hfirst
    | succ n => exact ih hrest (Nat.lt_of_succ_lt_succ hn)

theorem State.Advances.le {ms : List Move} {s : State} (h : s.Advances ms) (n : Nat) :
    (s.afterMoves (ms.take n)).movesLeft ≤ s.movesLeft := by
  induction ms generalizing s n with
  | nil => rw [List.take_nil]; exact le_rfl
  | cons m ms ih =>
    obtain ⟨hfirst, hrest⟩ := h
    cases n with
    | zero => exact le_rfl
    | succ n => exact (ih hrest n).trans hfirst.le

/-! ### The schedule of one request -/

/-- ACCEPT, these moves, and RESPOND. -/
def oneRequest (ms : List Move) : List Move :=
  .ptw :: ms ++ [.take]

/-- Micro-steps of the PTW and answers of the memory agent, no others. -/
def isWalkMove (m : Move) : Bool :=
  m = .ptw ∨ m = .memAnswer

theorem isWalkMove_rounds (n : Nat) : (List.replicate n levelRound).flatten.all isWalkMove = true := by
  induction n with
  | zero => rfl
  | succ n ih =>
    rw [List.replicate_succ, List.flatten_cons, List.all_append, ih]
    rfl

/-- Such moves do not change what the held request comes to. -/
theorem finishHeld_afterMoves {ms : List Move} {s : State} (hco : Coherent s) (hst : s.st ≠ .idle)
    (hms : ms.all isWalkMove = true) : (s.afterMoves ms).finishHeld = s.finishHeld := by
  induction ms generalizing s with
  | nil => rfl
  | cons m ms ih =>
    obtain ⟨hm, hms⟩ := Bool.and_eq_true_iff.mp hms
    have hfirst : (s.afterMove m).finishHeld = s.finishHeld := by
      obtain rfl | rfl : m = .ptw ∨ m = .memAnswer := of_decide_eq_true hm
      · exact finishHeld_ptwStep hco hst
      · exact finishHeld_memAnswer (memChan_empty_of_coherent hco)
    have hbusy : (s.afterMove m).st ≠ .idle := (sameRequest_of_finishHeld_eq hfirst).busy hco hst
    exact (ih (coherent_afterMove m hco) hbusy hms).trans hfirst

/-- `ms` carries the request `w` on the channel of `s` from its acceptance to its result, each move being a step. -/
structure State.CarriedBy (s : State) (w : ReqWord) (ms : List Move) : Prop where
  walkMoves : ms.all isWalkMove = true
  advances : (s.accepted w).Advances ms
  result : ((s.accepted w).afterMoves ms).st = .resp

section carried

variable {s : State} {w : ReqWord} {ms : List Move}

theorem afterMove_ptw_of_request (hst : s.st = .idle) (hw : s.reqChan = some w) : s.afterMove .ptw = s.accepted w :=
  (ptwStep_of_idle hst).trans (acceptStep_of_request hw)

theorem afterMoves_accept_cons (hst : s.st = .idle) (hw : s.reqChan = some w) (ms : List Move) :
    s.afterMoves (.ptw :: ms) = (s.accepted w).afterMoves ms := by
  rw [← afterMove_ptw_of_request hst hw]
  rfl

/-- The last move takes the result that the others have brought. -/
theorem State.CarriedBy.afterMoves_oneRequest (h : s.CarriedBy w ms) (hco : Coherent s) (hst : s.st = .idle)
    (hw : s.reqChan = some w) : s.afterMoves (oneRequest ms) = (s.accepted w).runHeld := by
  have hfinish := finishHeld_afterMoves (coherent_accepted w hco hst) (accepted_st w s) h.walkMoves
  rw [finishHeld_of_resp h.result] at hfinish
  rw [oneRequest, afterMoves_append, afterMoves_accept_cons hst hw, hfinish]
  rfl

/-- ACCEPT and the moves up to the result each lower the rank. -/
theorem State.CarriedBy.advances_accept (h : s.CarriedBy w ms) (hst : s.st = .idle) (hw : s.reqChan = some w) :
    s.Advances (.ptw :: ms) := by
  rw [State.Advances, afterMove_ptw_of_request hst hw]
  exact ⟨movesLeft_accepted_lt w hst, h.advances⟩

/-- Before the last move: every move is a step, the PTW is busy from the first one on, and has no response yet. -/
theorem State.CarriedBy.move_before_last (h : s.CarriedBy w ms) (hst : s.st = .idle) (hw : s.reqChan = some w)
    {n : Nat} (hn : n < (Move.ptw :: ms).length) :
    (s.afterMoves ((Move.ptw :: ms).take (n + 1))).movesLeft < (s.afterMoves ((Move.ptw :: ms).take n)).movesLeft ∧
      (0 < n → (s.afterMoves ((Move.ptw :: ms).take n)).st ≠ .idle) ∧
      (s.afterMoves ((Move.ptw :: ms).take n)).st ≠ .resp := by
  have hadv := h.advances_accept hst hw
  refine ⟨hadv.lt hn, fun hpos hidle => ?_, fun hresp => ?_⟩
  · cases n with
    | zero => exact absurd hpos (Nat.lt_irrefl 0)
    | succ n =>
      rw [List.take_succ_cons, afterMoves_accept_cons hst hw] at hidle
      have hle := h.advances.le n
      have hlt := movesLeft_accepted_lt w hst
      rw [movesLeft_of_idle hidle] at hle
      rw [movesLeft_of_idle hst] at hlt
      omega
  · have hlt := hadv.lt hn
    rw [movesLeft_of_resp hresp] at hlt
    exact absurd hlt (Nat.not_lt_zero _)

/-- The last move: from RESP, by RESPOND, to IDLE. -/
theorem State.CarriedBy.last_move (h : s.CarriedBy w ms) (hst : s.st = .idle) (hw : s.reqChan = some w) :
    (s.afterMoves (.ptw :: ms)).st = .resp ∧ (s.afterMoves (oneRequest ms)).st = .idle := by
  have hresp : (s.afterMoves (.ptw :: ms)).st = .resp := by
    rw [afterMoves_accept_cons hst hw]
    exact h.result
  refine ⟨hresp, ?_⟩
  rw [oneRequest, afterMoves_append]
  exact congrArg State.st (respond_of_resp hresp)

/-- What the whole schedule comes to: the response and the reads of the pure functions (R83). -/
theorem State.CarriedBy.outcome (h : s.CarriedBy w ms) (hco : Coherent s) (hst : s.st = .idle)
    (hw : s.reqChan = some w) :
    ∃ t, follow (oneRequest ms) s = .next t ∧ t.st = .idle ∧
      t.taken = s.taken ++ [responseOf s.img (decode w)] ∧ t.readLog = s.readLog ++ readsOf s.img (decode w) := by
  refine ⟨_, follow_eq _ s, ?_⟩
  rw [h.afterMoves_oneRequest hco hst hw]
  exact ⟨(runHeld_accepted w s).1, runHeld_acceptInstr_taken _ _, runHeld_acceptInstr_readLog _ _⟩

/-- Every move of the whole schedule is a step; the PTW is busy inside it and has its response at the last move only. -/
theorem State.CarriedBy.every_move (h : s.CarriedBy w ms) (hst : s.st = .idle) (hw : s.reqChan = some w) {n : Nat}
    (hn : n < (oneRequest ms).length) :
    ∃ t u, follow ((oneRequest ms).take n) s = .next t ∧ follow ((oneRequest ms).take (n + 1)) s = .next u ∧ u ≠ t ∧
      (0 < n → t.st ≠ .idle) ∧ (n + 1 < (oneRequest ms).length → t.st ≠ .resp) := by
  refine ⟨_, _, follow_eq _ s, follow_eq _ s, ?_⟩
  have hlen : (oneRequest ms).length = (Move.ptw :: ms).length + 1 := List.length_append
  rw [hlen] at hn ⊢
  rcases Nat.lt_or_eq_of_le (Nat.le_of_lt_succ hn) with hlt | rfl
  · obtain ⟨hrank, hbusy, hnot⟩ := h.move_before_last hst hw hlt
    have htake : (oneRequest ms).take n = (Move.ptw :: ms).take n := List.take_append_of_le_length hlt.le
    have htake' : (oneRequest ms).take (n + 1) = (Move.ptw :: ms).take (n + 1) := List.take_append_of_le_length hlt
    rw [htake, htake']
    refine ⟨fun heq => ?_, hbusy, fun _ => hnot⟩
    have hsame := congrArg State.movesLeft heq
    rw [plan_movesLeft, plan_movesLeft] at hsame
    exact Nat.ne_of_lt hrank hsame
  · obtain ⟨hresp, hidle⟩ := h.last_move hst hw
    have htake : (oneRequest ms).take (Move.ptw :: ms).length = .ptw :: ms := List.take_left
    have htake' : (oneRequest ms).take ((Move.ptw :: ms).length + 1) = oneRequest ms := by
      rw [← hlen, List.take_length]
    rw [htake, htake']
    refine ⟨fun heq => ?_, fun _ => ?_, fun hover => absurd hover (Nat.lt_irrefl _)⟩
    · have hsame := congrArg State.st heq
      rw [plan_st, plan_st, hidle, hresp] at hsame
      cases hsame
    · rw [plan_st, hresp]
      decide

end carried

/-! ### One round -/

/-- A walk of `va` over `img` that has come to level `k` with this base and is about to issue its read. -/
structure State.AtLevel (img : Memory) (va : Word) (k : Level) (base : Word) (t : State) : Prop where
  coherent : Coherent t
  st : t.st = .issue
  img : t.img = img
  vaQ : t.vaQ = va
  lvl : t.lvl = k
  baseQ : t.baseQ = base

section round

variable {img : Memory} {va base a e : Word} {k : Level} {t : State}

/-- ISSUE sends the read, M-ANSWER gives what the image holds there, TAKE takes it; each is a step. -/
theorem State.AtLevel.round (h : t.AtLevel img va k base) (ha : entryNumber va k base = a.toNat) :
    t.Advances levelRound ∧ ∃ (u : State) (m : Mrsp), t.afterRound = u.takeAnswer m ∧ u.img = img ∧ u.vaQ = va ∧
      u.lvl = k ∧ img.read a = if m.present then some m.data else none := by
  obtain ⟨hco, hst, rfl, rfl, rfl, rfl⟩ := h
  have hissue : t.ptwStep = { t.sendRead a with st := .wait } :=
    (ptwStep_of_issue hst).trans (issueStep_of_address ha)
  have hwait : t.ptwStep.st = .wait := by rw [hissue]
  have hreq : t.ptwStep.memChan = .request a := by rw [hissue]; rfl
  obtain ⟨m, hm⟩ := (memAnswer_memChan_cases t.ptwStep).resolve_right (by simp [hreq])
  have hwait' : t.ptwStep.memAnswer.st = .wait := (State.memAnswer_st _).trans hwait
  have htake := ptwStep_of_wait hwait'
  constructor
  · refine ⟨?_, movesLeft_memAnswer_lt hwait hreq, ?_, trivial⟩
    · show t.ptwStep.movesLeft < _
      rw [ptwStep_of_issue hst]
      exact movesLeft_issueStep_lt hst
    · show t.ptwStep.memAnswer.ptwStep.movesLeft < t.ptwStep.memAnswer.movesLeft
      rw [htake]
      exact movesLeft_takeStep_lt hwait' hm
  · have hflight := (coherent_memAnswer (coherent_ptwStep hco)).inFlight
    simp only [inFlightOk, hm] at hflight
    obtain ⟨_, hread⟩ := hflight
    refine ⟨{ t.ptwStep.memAnswer with memChan := .empty }, m, htake.trans (takeStep_answer hm), ?_, ?_, ?_, ?_⟩
    · exact (State.memAnswer_img _).trans (ptwStep_img t)
    · exact (State.memAnswer_vaQ _).trans (by rw [hissue]; rfl)
    · exact (State.memAnswer_lvl _).trans (by rw [hissue]; rfl)
    · rw [← hread]
      simp [hissue, ha, Memory.read]

/-- A present entry above level 4 takes the walk to the next level (R80 iii). -/
theorem State.AtLevel.down {k' : Level} (h : t.AtLevel img va k base) (hv : visit img va k base = .entry a e)
    (hk : nextLevel k = some k') : t.Advances levelRound ∧ t.afterRound.AtLevel img va k' (nextBase e) := by
  obtain ⟨ha, hr, hp⟩ := of_visit_eq_entry hv
  obtain ⟨hadv, u, m, hround, himg, hva, rfl, hread⟩ := h.round ha
  refine ⟨hadv, ?_⟩
  rw [hr] at hread
  split at hread
  · next hpresent =>
    obtain rfl : m.data = e := (Option.some.inj hread).symm
    have hco := coherent_afterRound h.coherent
    rw [hround, takeAnswer_of_next hpresent hp hk] at hco ⊢
    exact ⟨hco, rfl, himg, hva, rfl, rfl⟩
  · cases hread

/-- A present entry at level 4 completes the walk (R80 iv). -/
theorem State.AtLevel.last (h : t.AtLevel img va .pt base) (hv : visit img va .pt base = .entry a e) :
    t.Advances levelRound ∧ t.afterRound.st = .resp := by
  obtain ⟨ha, hr, hp⟩ := of_visit_eq_entry hv
  obtain ⟨hadv, u, m, hround, _, _, hlvl, hread⟩ := h.round ha
  refine ⟨hadv, ?_⟩
  rw [hr] at hread
  split at hread
  · next hpresent =>
    obtain rfl : m.data = e := (Option.some.inj hread).symm
    rw [hround, takeAnswer_of_last hpresent hp (by rw [hlvl]; rfl)]
    rfl
  · cases hread

/-- F-ABSENT and F-NOTPRESENT end the walk after the read (R80 i, ii). -/
theorem State.AtLevel.fault {c : Cause} (h : t.AtLevel img va k base) (hc : (visit img va k base).cause = some c)
    (hne : c ≠ .overflow) : t.Advances levelRound ∧ t.afterRound.st = .resp := by
  have haddr : ∃ a : Word, entryNumber va k base = a.toNat := by
    refine (entryNumber_overflow_or_word va k base).resolve_left fun hge => ?_
    rw [visit_of_overflow hge] at hc
    exact hne (Option.some.inj hc).symm
  obtain ⟨a, ha⟩ := haddr
  obtain ⟨hadv, u, m, hround, _, _, _, hread⟩ := h.round ha
  have hfault : m.present = false ∨ isPresent m.data = false := by
    rw [visit_eq_ofRead ha, hread] at hc
    cases hpresent : m.present with
    | false => exact Or.inl rfl
    | true =>
      refine Or.inr (Bool.eq_false_iff.mpr fun hp => ?_)
      simp [hpresent, Visit.ofRead, hp, Visit.cause] at hc
  rw [hround, takeAnswer_of_fault hfault]
  exact ⟨hadv, rfl⟩

end round

/-! ### The rounds of a walk -/

/-- `n` rounds. -/
def rounds (n : Nat) : List Move :=
  (List.replicate n levelRound).flatten

theorem roundsSchedule_eq (n : Nat) : roundsSchedule n = oneRequest (rounds n) :=
  rfl

theorem rounds_succ (n : Nat) : rounds (n + 1) = rounds n ++ levelRound := by
  simp [rounds, List.replicate_succ']

section walk

variable {s : State} {w : ReqWord} {va root base : Word} {k : Level}

theorem atLevel_accepted (hco : Coherent s) (hst : s.st = .idle) (hd : decode w = .translate va root) :
    (s.accepted w).AtLevel s.img va .pml4 root := by
  have hcoa := coherent_accepted w hco hst
  rw [State.accepted, hd] at hcoa ⊢
  exact ⟨hcoa, rfl, rfl, rfl, rfl, rfl⟩

/-- One round for every level before brings the walk to a level that it reaches, by induction on those levels. -/
theorem atLevel_of_reaches (hco : Coherent s) (hst : s.st = .idle) (hd : decode w = .translate va root)
    (here : Reaches va root s.img k base) :
    ∃ n, levelNumber k = n + 1 ∧ (s.accepted w).Advances (rounds n) ∧
      ((s.accepted w).afterMoves (rounds n)).AtLevel s.img va k base := by
  induction here with
  | start => exact ⟨0, rfl, trivial, atLevel_accepted hco hst hd⟩
  | @down k k' base e _ fits found present next ih =>
    obtain ⟨n, hn, hadv, hlevel⟩ := ih
    obtain ⟨a, ha⟩ := (entryNumber_overflow_or_word va k base).resolve_left (Nat.not_le.mpr fits)
    have hv : visit s.img va k base = .entry a e := visit_of_entry ha (by rw [← found, ha, Memory.read]) present
    obtain ⟨hround, hnext⟩ := hlevel.down hv next
    refine ⟨n + 1, by rw [levelNumber_nextLevel next, hn], ?_, ?_⟩
    · rw [rounds_succ]
      exact hadv.append hround
    · rw [rounds_succ, afterMoves_append, afterMoves_levelRound]
      exact hnext

/-- Where the round of a level that is reached ends in a result, one round a level carries the request. -/
theorem carriedBy_of_lastRound (hco : Coherent s) (hst : s.st = .idle) (hd : decode w = .translate va root)
    (here : Reaches va root s.img k base)
    (hlast : ∀ {t : State}, t.AtLevel s.img va k base → t.Advances levelRound ∧ t.afterRound.st = .resp) :
    s.CarriedBy w (rounds (levelNumber k)) := by
  obtain ⟨n, hn, hadv, hlevel⟩ := atLevel_of_reaches hco hst hd here
  obtain ⟨hround, hresp⟩ := hlast hlevel
  rw [hn]
  refine ⟨isWalkMove_rounds _, ?_, ?_⟩
  · rw [rounds_succ]
    exact hadv.append hround
  · rw [rounds_succ, afterMoves_append, afterMoves_levelRound]
    exact hresp

/-- F-OVERFLOW at level 1 ends the walk at ISSUE (R70). -/
theorem carriedBy_of_overflow (hco : Coherent s) (hst : s.st = .idle) (hd : decode w = .translate va root)
    (h : causeHolds va s.img .pml4 root .overflow) : s.CarriedBy w [.ptw] := by
  obtain ⟨_, hissue, _, hva, hlvl, hbase⟩ := atLevel_accepted hco hst hd
  have hptw : (s.accepted w).afterMove .ptw = (s.accepted w).issueStep := ptwStep_of_issue hissue
  refine ⟨rfl, ⟨?_, trivial⟩, ?_⟩
  · rw [hptw]
    exact movesLeft_issueStep_lt hissue
  · show ((s.accepted w).afterMove .ptw).st = .resp
    rw [hptw, issueStep_of_overflow (by rw [hva, hlvl, hbase]; exact h)]
    rfl

/-- An EXTRACT has its result when it is accepted (R78). -/
theorem carriedBy_of_extract (h : (decode w).op = .extract) : s.CarriedBy w [] := by
  refine ⟨rfl, trivial, ?_⟩
  show (s.accepted w).st = .resp
  unfold State.accepted
  cases hd : decode w with
  | extract va root => rfl
  | translate va root =>
    rw [hd] at h
    cases h

end walk

/-! ### The counts -/

/-- Two micro-steps a round, ACCEPT and RESPOND (R110). -/
theorem microSteps_roundsSchedule (n : Nat) : microSteps (roundsSchedule n) = 2 * n + 2 := by
  have hrounds : microSteps (rounds n) = 2 * n := by
    induction n with
    | zero => rfl
    | succ n ih =>
      have hround : microSteps levelRound = 2 := by decide
      rw [rounds_succ, microSteps, List.countP_append]
      exact congrArg₂ (· + ·) ih hround
  rw [roundsSchedule_eq, oneRequest, microSteps, List.countP_append, List.countP_cons]
  exact congrArg (· + 2) hrounds

theorem readsOf_extract {i : Instr} (h : i.op = .extract) (img : Memory) : readsOf img i = [] := by
  cases i with
  | extract va root => rfl
  | translate va root => cases h

/-- Settles O53: one round for every level that is read, none for an EXTRACT, and ISSUE alone for F-OVERFLOW. -/
theorem microStepCounts : Obligations.MicroStepCounts := by
  intro s w ms reads micro hco hst hw hcase
  have hcarried : ∃ mid, ms = oneRequest mid ∧ s.CarriedBy w mid ∧ microSteps ms = micro ∧
      (readsOf s.img (decode w)).length = reads := by
    rcases hcase with ⟨hop, rfl, rfl, rfl⟩ | ⟨va, root, hd, ⟨⟨pa, hok⟩, rfl, rfl, rfl⟩ |
      ⟨k, base, c, here, hc, hne, rfl, rfl, rfl⟩ | ⟨hover, rfl, rfl, rfl⟩⟩
    · exact ⟨[], rfl, carriedBy_of_extract hop, rfl, by rw [readsOf_extract hop]; rfl⟩
    · obtain ⟨base, a, e, here, hv, _, hlen⟩ := lastEntry_of_ok hok
      exact ⟨rounds 4, rfl, carriedBy_of_lastRound hco hst hd here fun h => h.last hv,
        microSteps_roundsSchedule 4, by rw [hd]; exact hlen⟩
    · obtain ⟨_, hlen, _⟩ := readCounts va root s.img
      have hcause := (causeHolds_iff_visit_cause va s.img k base c).mp hc
      exact ⟨rounds (levelNumber k), rfl, carriedBy_of_lastRound hco hst hd here fun h => h.fault hcause hne,
        microSteps_roundsSchedule _, by rw [hd]; exact hlen k base c here hc hne⟩
    · obtain ⟨_, hnone, _⟩ := rootOverflowReadsNothing va root s.img hover
      exact ⟨[.ptw], rfl, carriedBy_of_overflow hco hst hd hover, rfl, by rw [hd, readsOf, hnone]; rfl⟩
  obtain ⟨mid, rfl, hmid, hmicro, hlen⟩ := hcarried
  obtain ⟨t, hrun, hidle, htaken, hlog⟩ := hmid.outcome hco hst hw
  exact ⟨hmicro, ⟨t, _, hrun, hidle, htaken, hlog, rfl, hlen⟩, fun _ hn => hmid.every_move hst hw hn⟩

end Sys2Proof.Machine
end

section
/-! Fair schedules (R107, R109; log 24): in each state the move of one agent is due; every other move leaves it due or
brings the request nearer to its response itself, and fairness brings it, until the request is served. -/

namespace Sys2Proof.Machine

open Sys2Proof.Safety

/-! ### The move that is due -/

/-- This move does what the state is waiting for: an answer, the taking of the response, or else the PTW's own step. -/
def State.wokenBy (m : Move) (s : State) : Bool :=
  match s.st, s.memChan with
  | .wait, .request _ => answersRead m
  | .resp, _ => takesResponse m
  | _, _ => movesPtw m

section woken

variable {m : Move} {s : State}

theorem wokenBy_of_request {a : Word} (hst : s.st = .wait) (hm : s.memChan = .request a) :
    s.wokenBy m = answersRead m := by
  simp only [State.wokenBy, hst, hm]

theorem wokenBy_of_resp (hst : s.st = .resp) : s.wokenBy m = takesResponse m := by
  simp only [State.wokenBy, hst]

theorem wokenBy_of_ready (hst : s.st ≠ .resp) (hm : ∀ a, s.memChan ≠ .request a) : s.wokenBy m = movesPtw m := by
  unfold State.wokenBy
  split
  · exact absurd ‹_› (hm _)
  · exact absurd ‹_› hst
  · rfl

/-- An offer of the requester changes neither what is due nor the rank. -/
theorem wokenBy_offer (m : Move) (s : State) : s.offer.wokenBy m = s.wokenBy m := by
  simp only [State.wokenBy, State.offer_st, State.offer_memChan]

theorem movesLeft_offer (s : State) : s.offer.movesLeft = s.movesLeft := by
  simp only [State.movesLeft, State.offer_st, State.offer_memChan, State.offer_lvl]

/-! ### A move from a state in which the PTW's own step is due -/

/-- Outside RESP an edge is the PTW's own step, or holds a read that the memory agent is not ready for (R59). -/
theorem clockEdge_ptwStep_or_self {p : Pins} (hp : p.rst = false) (hst : s.st ≠ .resp) :
    s.clockEdge p = s.ptwStep ∨ p.memReqReady = false ∧ s.clockEdge p = s := by
  cases h : s.st with
  | idle => exact Or.inl ((clockEdge_of_idle hp h).trans (ptwStep_of_idle h).symm)
  | issue =>
    have he : s.clockEdge p = if s.memReqValid && !p.memReqReady then s else s.issueStep := by
      simp [State.clockEdge, hp, h]
    rw [he, ptwStep_of_issue h]
    split
    · next hheld => exact Or.inr ⟨by simpa using (Bool.and_eq_true_iff.mp hheld).2, rfl⟩
    · exact Or.inl rfl
  | wait => exact Or.inl ((clockEdge_of_wait hp h).trans (ptwStep_of_wait h).symm)
  | resp => exact absurd h hst

/-- Every move is then a transaction, the PTW's own step, or a wait or an offer that is not due. -/
theorem afterMove_of_ready (hst : s.st ≠ .resp) (hmem : ∀ a, s.memChan ≠ .request a) (hm : noReset m = true) :
    m = .transact ∨ s.afterMove m = s.ptwStep ∨
      movesPtw m = false ∧ (s.afterMove m = s ∨ s.afterMove m = s.offer) := by
  cases m with
  | transact => exact Or.inl rfl
  | offer => exact Or.inr (Or.inr ⟨rfl, Or.inr rfl⟩)
  | ptw => exact Or.inr (Or.inl rfl)
  | memAnswer => exact Or.inr (Or.inr ⟨rfl, Or.inl (memAnswer_nothing hmem)⟩)
  | take => exact Or.inr (Or.inr ⟨rfl, Or.inl (respond_of_not_resp hst)⟩)
  | reset => cases hm
  | edge p =>
    have hrst : p.rst = false := by simpa [noReset] using hm
    rcases clockEdge_ptwStep_or_self hrst hst with h | ⟨hready, h⟩
    · exact Or.inr (Or.inl h)
    · exact Or.inr (Or.inr ⟨hready, Or.inl h⟩)

/-- A move that answers a read is a transaction or M-ANSWER. -/
theorem answersRead_cases (h : answersRead m = true) : m = .transact ∨ m = .memAnswer := by
  cases m with
  | transact => exact Or.inl rfl
  | memAnswer => exact Or.inr rfl
  | _ => cases h

/-- A move that takes a response finishes the request in RESP. -/
theorem afterMove_of_taken (hst : s.st = .resp) (hm : noReset m = true) (h : takesResponse m = true) :
    s.afterMove m = s.runHeld := by
  have hrespond : s.respond = s.runHeld := by rw [State.runHeld, finishHeld_of_resp hst]
  cases m with
  | transact => exact afterMove_transact_held (by simp [hst])
  | take => exact hrespond
  | edge p =>
    have hrst : p.rst = false := by simpa [noReset] using hm
    have hready : p.rspReady = true := h
    have hedge : s.afterMove (.edge p) = s.clockEdge p := rfl
    rw [hedge, clockEdge_of_resp hrst hst, if_pos hready, hrespond]
  | _ => cases h

end woken

/-! ### A request on its way -/

/-- The request `w` of a run from `s` is still on the channel of an idle PTW, or is inside the PTW. -/
structure State.Awaits (s : State) (w : ReqWord) (t : State) : Prop where
  coherent : Coherent t
  img : t.img = s.img
  pending : s.ServedIdle [] t ∧ t.reqChan = some w ∨ s.ServedBusy [] w t

section awaits

variable {m : Move} {s t : State} {w : ReqWord}

theorem State.Awaits.request_of_idle (h : s.Awaits w t) (hst : t.st = .idle) :
    s.ServedIdle [] t ∧ t.reqChan = some w :=
  h.pending.resolve_right fun hbusy => hbusy.busy hst

theorem State.Awaits.busy (h : s.Awaits w t) (hst : t.st ≠ .idle) : s.ServedBusy [] w t :=
  h.pending.resolve_left fun ⟨hidle, _⟩ => hst hidle.idle

/-- A move without a reset serves the request, or leaves it on its way. -/
theorem State.Awaits.afterMove (h : s.Awaits w t) (hm : noReset m = true) :
    s.ServedIdle [w] (t.afterMove m) ∨ s.Awaits w (t.afterMove m) := by
  have hco' := coherent_afterMove m h.coherent
  have himg' := (afterMove_img m t).trans h.img
  suffices hmoved : s.ServedIdle [w] (t.afterMove m) ∨
      (s.ServedIdle [] (t.afterMove m) ∧ (t.afterMove m).reqChan = some w ∨ s.ServedBusy [] w (t.afterMove m)) from
    hmoved.imp_right fun hp => ⟨hco', himg', hp⟩
  rcases h.pending with ⟨hidle, hw⟩ | hbusy
  · have hmove := idleMove_afterMove h.coherent hidle.idle hm
    generalize t.afterMove m = u at hmove ⊢
    cases hmove with
    | stay => exact Or.inr (Or.inl ⟨hidle, hw⟩)
    | offer => exact Or.inr (Or.inl ⟨hidle.offer, by rw [offer_of_taken (by simp [hw]), hw]⟩)
    | accept hw' =>
      obtain rfl := Option.some.inj (hw.symm.trans hw')
      exact Or.inr (Or.inr (hidle.accepted h.img hw))
    | run hw' =>
      obtain rfl := Option.some.inj (hw.symm.trans hw')
      exact Or.inl ((hidle.accepted h.img hw).runHeld (coherent_accepted w h.coherent hidle.idle))
  · rcases afterMove_of_held h.coherent hbusy.busy hm with he | he
    · rw [he]
      exact Or.inl (hbusy.runHeld h.coherent)
    · exact Or.inr (Or.inr (hbusy.sameRequest h.coherent he (recordsGrow_afterMove m t)))

/-- A transaction serves the request, wherever it stands (R9). -/
theorem State.Awaits.transact (h : s.Awaits w t) : s.ServedIdle [w] (t.afterMove .transact) := by
  rcases h.pending with ⟨hidle, hw⟩ | hbusy
  · rw [afterMove_transact_request hidle.idle hw]
    exact (hidle.accepted h.img hw).runHeld (coherent_accepted w h.coherent hidle.idle)
  · rw [afterMove_transact_held hbusy.busy]
    exact hbusy.runHeld h.coherent

/-- The request is served, or is nearer to its response, or is where it was, the move not being due. -/
theorem State.Awaits.progress (h : s.Awaits w t) (hm : noReset m = true) :
    s.ServedIdle [w] (t.afterMove m) ∨ (t.afterMove m).movesLeft < t.movesLeft ∨
      t.wokenBy m = false ∧ (t.afterMove m = t ∨ t.afterMove m = t.offer) := by
  by_cases hresp : t.st = .resp
  · have hmem : t.memChan = .empty := memChan_empty_of_coherent h.coherent (by simp [hresp])
    rw [wokenBy_of_resp hresp]
    cases htakes : takesResponse m with
    | true =>
      rw [afterMove_of_taken hresp hm htakes]
      exact Or.inl ((h.busy (by simp [hresp])).runHeld h.coherent)
    | false =>
      have hanswer : t.memAnswer = t := memAnswer_nothing (by simp [hmem])
      rcases afterMove_of_untaken (m := m) hresp (by simp [hm, htakes]) with he | he | he
      · exact Or.inr (Or.inr ⟨rfl, Or.inl he⟩)
      · exact Or.inr (Or.inr ⟨rfl, Or.inr he⟩)
      · exact Or.inr (Or.inr ⟨rfl, Or.inl (he.trans hanswer)⟩)
  · by_cases hmem : ∃ a, t.memChan = .request a
    · obtain ⟨a, hreq⟩ := hmem
      obtain ⟨hst, _⟩ := request_of_coherent h.coherent hreq
      rw [wokenBy_of_request hst hreq]
      cases hanswers : answersRead m with
      | true =>
        obtain rfl | rfl := answersRead_cases hanswers
        · exact Or.inl h.transact
        · exact Or.inr (Or.inl (movesLeft_memAnswer_lt hst hreq))
      | false => exact Or.inr (Or.inr ⟨rfl, afterMove_of_unanswered hst hreq (by simp [hm, hanswers])⟩)
    · have hready : ∀ a, t.memChan ≠ .request a := not_exists.mp hmem
      rw [wokenBy_of_ready hresp hready]
      rcases afterMove_of_ready hresp hready hm with rfl | he | hwait
      · exact Or.inl h.transact
      · rw [he]
        exact Or.inr (Or.inl (movesLeft_ptwStep_lt h.coherent hresp hready fun hidle =>
          ⟨w, (h.request_of_idle hidle).2⟩))
      · exact Or.inr (Or.inr hwait)

end awaits

/-! ### Along an infinite schedule -/

/-- The state after the first `n` moves of an infinite schedule. -/
def State.along (σ : Nat → Move) (n : Nat) (s : State) : State :=
  s.afterMoves ((List.range n).map σ)

theorem along_succ (σ : Nat → Move) (n : Nat) (s : State) : s.along σ (n + 1) = (s.along σ n).afterMove (σ n) := by
  simp [State.along, State.afterMoves, List.range_succ]

theorem alongSchedule_eq (σ : Nat → Move) (n : Nat) (s : State) :
    alongSchedule σ n s = .next ((s.along σ n).plan [] s.cycle) :=
  follow_eq _ s

section fair

variable {σ : Nat → Move} {s : State} {w : ReqWord}

/-- Fairness brings the move that is due. -/
theorem exists_wokenBy_of_fair (hfair : Fair σ s) {n : Nat} (hco : Coherent (s.along σ n)) :
    ∃ d, (s.along σ n).wokenBy (σ (n + d)) = true := by
  have hlater : ∀ {p : Move → Bool}, (∃ m, n ≤ m ∧ p (σ m) = true) → ∃ d, p (σ (n + d)) = true := by
    rintro p ⟨m, hle, hm⟩
    exact ⟨m - n, by rwa [Nat.add_sub_cancel' hle]⟩
  by_cases hresp : (s.along σ n).st = .resp
  · simp only [wokenBy_of_resp hresp]
    exact hlater (hfair.requester n _ (alongSchedule_eq σ n s) hresp)
  · by_cases hmem : ∃ a, (s.along σ n).memChan = .request a
    · obtain ⟨a, hreq⟩ := hmem
      simp only [wokenBy_of_request (request_of_coherent hco hreq).1 hreq]
      exact hlater (hfair.memory n _ a (alongSchedule_eq σ n s) hreq)
    · simp only [wokenBy_of_ready hresp (not_exists.mp hmem)]
      exact hlater (hfair.ptw n)

/-- Up to the move that is due the request is served or gets nearer to its response, by induction on how far off that
move is: until then every move leaves the same move due. -/
theorem State.Awaits.nearer (hreset : ∀ n, noReset (σ n) = true) {d n : Nat} (h : s.Awaits w (s.along σ n))
    (hdue : (s.along σ n).wokenBy (σ (n + d)) = true) :
    ∃ n', s.ServedIdle [w] (s.along σ n') ∨
      s.Awaits w (s.along σ n') ∧ (s.along σ n').movesLeft < (s.along σ n).movesLeft := by
  induction d generalizing n with
  | zero =>
    refine ⟨n + 1, ?_⟩
    rw [along_succ]
    rcases h.progress (hreset n) with hserved | hlt | ⟨hnot, _⟩
    · exact Or.inl hserved
    · exact (h.afterMove (hreset n)).imp_right fun hnext => ⟨hnext, hlt⟩
    · exact absurd (hdue.symm.trans hnot) Bool.noConfusion
  | succ d ih =>
    have hnext := h.afterMove (hreset n)
    have hprogress := h.progress (hreset n)
    rw [← along_succ] at hnext hprogress
    rcases hnext with hserved | hnext
    · exact ⟨n + 1, Or.inl hserved⟩
    · rcases hprogress with hserved | hlt | ⟨_, hsame⟩
      · exact ⟨n + 1, Or.inl hserved⟩
      · exact ⟨n + 1, Or.inr ⟨hnext, hlt⟩⟩
      · have hkeep : (∀ m, (s.along σ (n + 1)).wokenBy m = (s.along σ n).wokenBy m) ∧
            (s.along σ (n + 1)).movesLeft = (s.along σ n).movesLeft := by
          rcases hsame with he | he <;> rw [he]
          · exact ⟨fun _ => rfl, rfl⟩
          · exact ⟨fun m => wokenBy_offer m _, movesLeft_offer _⟩
        obtain ⟨hdue', hrank⟩ := hkeep
        rw [← hrank]
        exact ih hnext (by rw [hdue', Nat.add_right_comm]; exact hdue)

/-- Under a fair schedule a request on its way is served, by induction on its rank. -/
theorem State.Awaits.served_of_fair (hfair : Fair σ s) {r n : Nat} (h : s.Awaits w (s.along σ n))
    (hr : (s.along σ n).movesLeft = r) : ∃ n', s.ServedIdle [w] (s.along σ n') := by
  induction r using Nat.strong_induction_on generalizing n with
  | _ r ih =>
    obtain ⟨d, hdue⟩ := exists_wokenBy_of_fair hfair h.coherent
    obtain ⟨n', hserved | ⟨hnext, hlt⟩⟩ := h.nearer hfair.noReset hdue
    · exact ⟨n', hserved⟩
    · exact ih _ (hr ▸ hlt) hnext rfl

end fair

/-- Settles O49: at the start the request is on its way. -/
theorem fairSchedulesAnswer : Obligations.FairSchedulesAnswer := by
  intro σ s w hco hst hw hfair
  have hidle : s.ServedIdle [] s := ⟨hst, rfl, (List.append_nil _).symm, (List.append_nil _).symm⟩
  have hstart : s.Awaits w (s.along σ 0) := ⟨hco, rfl, Or.inl ⟨hidle, hw⟩⟩
  obtain ⟨n, hserved⟩ := hstart.served_of_fair hfair rfl
  exact ⟨n, _, alongSchedule_eq σ n s, hserved.idle, hserved.taken⟩

end Sys2Proof.Machine
end
